-- ==== Sys2Proof/Word.lean ====
section
/-! DEFINITION. The word types of vks/aesrng CORE (spec/00_scope.md R12 to R14): a byte, a 32-bit word, a
128-bit block, the 256-bit seed operand and the 64-bit length. Byte `i` of a block, of a seed or of a length is
its bits `8i+7 .. 8i`, so the natural number of the bit vector IS the little-endian integer reading `val` of R13
(decision D2 of the spec). What is computed on them stands in Sys2Proof/Machine/Bytes.lean. -/

namespace Sys2Proof

/-- A byte (R12). -/
abbrev Byte := BitVec 8

/-- A 32-bit word of a block (R14). -/
abbrev Word32 := BitVec 32

/-- A 128-bit block: round key, counter, cipher state, scratch block (R12). -/
abbrev Block := BitVec 128

/-- The 32-byte seed operand (R37, R51, R82). -/
abbrev Seed := BitVec 256

/-- A 64-bit length register, `LEN_W = 64` (R10, R31, R32). -/
abbrev Len := BitVec 64

end Sys2Proof
end

