-- ==== Sys2Proof/Machine/Bytes.lean ====
section
/-! DEFINITION. Blocks as sequences of bytes, of words, and as numbers (spec/00_scope.md R12 to R15). -/

namespace Sys2Proof.Machine

/-- Byte `i` of a block (R12, R13: bits `8i+7 .. 8i`). -/
def byteAt (b : Block) (i : Nat) : Byte := b.extractLsb' (8 * i) 8

/-- The block whose byte `i` is `g i`, `0 <= i < 16`. -/
def ofBytes (g : Nat → Byte) : Block :=
  g 15 ++ g 14 ++ g 13 ++ g 12 ++ g 11 ++ g 10 ++ g 9 ++ g 8 ++ g 7 ++ g 6 ++ g 5 ++ g 4 ++ g 3 ++ g 2 ++ g 1 ++ g 0

/-- The 16 bytes of a block, byte 0 first (R12): the order in which a block stands in the seed and in the output. -/
def blockBytesOf (b : Block) : List Byte := (List.range 16).map (byteAt b)

/-- The block of a 16-byte sequence, byte 0 first (R52). -/
def blockOfBytes (bs : List Byte) : Block := ofBytes fun i => bs.getD i 0#8

/-- A block from its hexadecimal writing, which puts byte 0 first (R12). -/
def ofHex (h : BitVec 128) : Block := ofBytes fun i => byteAt h (15 - i)

/-- The integer value of a block (R13, D2): byte 0 is the least significant. -/
def val (b : Block) : Nat := b.toNat

/-- The block with a given value modulo `2^128` (R13). -/
def blk (v : Nat) : Block := BitVec.ofNat 128 v

/-- `B.bits[hi:lo]` as a number (R13, R16). -/
def bitsOf (b : Block) (hi lo : Nat) : Nat := val b / 2 ^ lo % 2 ^ (hi - lo + 1)

/-- The word `W_j` of a block (R14): bits `32j+31 .. 32j`. -/
def wordAt (b : Block) (j : Nat) : Word32 := b.extractLsb' (32 * j) 32

/-- The block with the words `w0 .. w3`. -/
def ofWords (w0 w1 w2 w3 : Word32) : Block := w3 ++ w2 ++ w1 ++ w0

/-- Byte `i` of a word, `0 <= i < 4`. -/
def wordByte (w : Word32) (i : Nat) : Byte := w.extractLsb' (8 * i) 8

/-- The word with the bytes `b0 .. b3`, `b0` least significant (R14). -/
def ofWordBytes (b0 b1 b2 b3 : Byte) : Word32 := b3 ++ b2 ++ b1 ++ b0

end Sys2Proof.Machine
end

