-- ==== Sys2Proof/Machine/Operands.lean ====
section
/-! DEFINITION. The operands of the two commands. SEED's is the 32-byte `SEED` space, read by `MemRead(SEED, a, n)`
(spec/20_memory.md R51, R52, spec/45_seed.md R171). FILL's is the natural `LEN`; its assembly from the command's
bytes is `ofLEBytes` of Sys2Proof/Decode.lean (R83), and `lenOf` puts it into a length register. -/

namespace Sys2Proof.Machine

/-- Byte `a` of the seed, `0 <= a < 32` (R82: command byte `1 + a`). -/
def seedByte (s : Seed) (a : Nat) : Byte := s.extractLsb' (8 * a) 8

/-- `MemRead(SEED, a, n)` (R52): ascending order, no side effect. -/
def memReadSeed (s : Seed) (a n : Nat) : List Byte := (List.range n).map fun k => seedByte s (a + k)

/-- The key half, `seed[0 : 16)` (R171). -/
def seedKey (s : Seed) : Block := blockOfBytes (memReadSeed s 0 16)

/-- The counter half, `seed[16 : 32)`, "loaded byte-for-byte with no endianness conversion" (R171). -/
def seedCounter (s : Seed) : Block := blockOfBytes (memReadSeed s 16 16)

/-- A length as a 64-bit register holds it (R31); for `n < 2^64`, which is every length the encoding has, `n`. -/
def lenOf (n : Nat) : Len := BitVec.ofNat 64 n

end Sys2Proof.Machine
end

