-- ==== Sys2Proof/Machine/Cipher.lean ====
section
/-! DEFINITION. The cipher round primitives (spec/40_cipher_primitives.md R100 to R114): pure functions on bytes, words
and blocks. Their insides are marked in the spec itself as general knowledge, not the source's (D1, GK1 to GK6). -/

namespace Sys2Proof.Machine

/-- Multiplication by `x` in GF(2^8) (R101): doubled, and reduced by `0x11B` when that has nine bits. -/
def xtime (a : Byte) : Byte :=
  if 2 * a.toNat < 256 then BitVec.ofNat 8 (2 * a.toNat) else BitVec.ofNat 8 (2 * a.toNat) ^^^ 0x1b#8

/-- `mul2` (R101). -/
def mul2 (a : Byte) : Byte := xtime a

/-- `mul3` (R101). -/
def mul3 (a : Byte) : Byte := xtime a ^^^ a

/-- The general product (R101): the XOR, over the set bits `k` of `b`, of `xtime` applied `k` times to `a`. Computed
over the `n` low bits of `b`. -/
def gmulBits : Nat → Byte → Byte → Byte
  | 0, _, _ => 0#8
  | n + 1, a, b => (if b.toNat % 2 = 1 then a else 0#8) ^^^ gmulBits n (xtime a) (b >>> 1)

/-- `gmul a b` (R101). -/
def gmul (a b : Byte) : Byte := gmulBits 8 a b

/-- `rotl8` (R102). -/
def rotl8 (b : Byte) (n : Nat) : Byte := b.rotateLeft n

/-- One row of the table of R102, its 16 entries in the order printed: column 0 is the high byte. -/
def sboxRow : Nat → BitVec 128
  | 0 => 0x637c777bf26b6fc53001672bfed7ab76#128
  | 1 => 0xca82c97dfa5947f0add4a2af9ca472c0#128
  | 2 => 0xb7fd9326363ff7cc34a5e5f171d83115#128
  | 3 => 0x04c723c31896059a071280e2eb27b275#128
  | 4 => 0x09832c1a1b6e5aa0523bd6b329e32f84#128
  | 5 => 0x53d100ed20fcb15b6acbbe394a4c58cf#128
  | 6 => 0xd0efaafb434d338545f9027f503c9fa8#128
  | 7 => 0x51a3408f929d38f5bcb6da2110fff3d2#128
  | 8 => 0xcd0c13ec5f974417c4a77e3d645d1973#128
  | 9 => 0x60814fdc222a908846eeb814de5e0bdb#128
  | 10 => 0xe0323a0a4906245cc2d3ac629195e479#128
  | 11 => 0xe7c8376d8dd54ea96c56f4ea657aae08#128
  | 12 => 0xba78252e1ca6b4c6e8dd741f4bbd8b8a#128
  | 13 => 0x703eb5664803f60e613557b986c11d9e#128
  | 14 => 0xe1f8981169d98e949b1e87e9ce5528df#128
  | _ => 0x8ca1890dbfe6426841992d0fb054bb16#128

/-- `SBOX` (R102): row the high hexadecimal digit, column the low. -/
def sbox (a : Byte) : Byte := byteAt (sboxRow (a.toNat / 16)) (15 - a.toNat % 16)

/-- The affine map of R102's definition of `SBOX`. -/
def sboxAffine (b : Byte) : Byte := b ^^^ rotl8 b 1 ^^^ rotl8 b 2 ^^^ rotl8 b 3 ^^^ rotl8 b 4 ^^^ 0x63#8

/-- `SUBBYTES` (R103). -/
def subBytes (s : Block) : Block := ofBytes fun i => sbox (byteAt s i)

/-- `SHIFTROWS` (R105): row `r = i mod 4` of column `c = i div 4` takes column `(c + r) mod 4`. -/
def shiftRows (s : Block) : Block := ofBytes fun i => byteAt s (i % 4 + 4 * ((i / 4 + i % 4) % 4))

/-- One column of `MIXCOLUMNS` (R109). -/
def mixColumn (w : Word32) : Word32 :=
  let a0 := wordByte w 0
  let a1 := wordByte w 1
  let a2 := wordByte w 2
  let a3 := wordByte w 3
  ofWordBytes
    (mul2 a0 ^^^ mul3 a1 ^^^ a2 ^^^ a3)
    (a0 ^^^ mul2 a1 ^^^ mul3 a2 ^^^ a3)
    (a0 ^^^ a1 ^^^ mul2 a2 ^^^ mul3 a3)
    (mul3 a0 ^^^ a1 ^^^ a2 ^^^ mul2 a3)

/-- `MIXCOLUMNS` (R109): each column, which is a word of the block (R104), on its own. -/
def mixColumns (s : Block) : Block :=
  ofWords (mixColumn (wordAt s 0)) (mixColumn (wordAt s 1)) (mixColumn (wordAt s 2)) (mixColumn (wordAt s 3))

/-- `ROUND` (R106). -/
def cipherRound (s k : Block) : Block := mixColumns (subBytes (shiftRows s)) ^^^ k

/-- `LASTROUND` (R107). -/
def lastRound (s k : Block) : Block := subBytes (shiftRows s) ^^^ k

/-- `SUBWORD` (R110). -/
def subWord (w : Word32) : Word32 :=
  ofWordBytes (sbox (wordByte w 0)) (sbox (wordByte w 1)) (sbox (wordByte w 2)) (sbox (wordByte w 3))

/-- `ROTWORD` (R110): `(b0, b1, b2, b3)` to `(b1, b2, b3, b0)`. -/
def rotWord (w : Word32) : Word32 := ofWordBytes (wordByte w 1) (wordByte w 2) (wordByte w 3) (wordByte w 0)

/-- `RCW` (R110). -/
def rcWord (rc : Byte) : Word32 := ofWordBytes rc 0#8 0#8 0#8

/-- `KSASSIST` (R108). -/
def ksAssist (x : Block) (rc : Byte) : Block :=
  ofWords
    (subWord (wordAt x 1))
    (rotWord (subWord (wordAt x 1)) ^^^ rcWord rc)
    (subWord (wordAt x 3))
    (rotWord (subWord (wordAt x 3)) ^^^ rcWord rc)

/-- `BCAST3` (R111). -/
def bcast3 (y : Block) : Block := ofWords (wordAt y 3) (wordAt y 3) (wordAt y 3) (wordAt y 3)

/-- `SHL32` (R112). -/
def shl32 (k : Block) : Block := ofWords 0#32 (wordAt k 0) (wordAt k 1) (wordAt k 2)

end Sys2Proof.Machine
end

