-- ==== Sys2Proof/Config.lean ====
section
/-! DEFINITION. What is fixed when the hardware is built (spec/00_scope.md R10, R11): the constants of R10 that are
widths and counts, and the parameters `CTR_INC_WIDTH`, `NLANES` and `TYPE_MARKER`. The machine's functions take
a `Config`; the machine the host runs is the one of `Config.core`, the spec's own values. -/

namespace Sys2Proof

/-- `CTR_INC_WIDTH`, values 128 and 64 (R10, decision D3). -/
inductive AdderWidth where
  | w128
  | w64
deriving DecidableEq, Repr

/-- `NLANES`: the reference sequencer of R142 to R146 with eight lanes, or the one-lane sequencer R149
describes ("runs F1-like steps while REM > 16 and then the tail"). Unobservable (R149, D16). -/
inductive Lanes where
  | eight
  | one
deriving DecidableEq, Repr

/-- The parameters of R10 that a rule of the step relation reads. -/
structure Config where
  /-- `CTR_INC_WIDTH` -/
  ctrIncWidth : AdderWidth
  /-- `NLANES` -/
  nLanes : Lanes
deriving DecidableEq, Repr

/-- The spec's values: `CTR_INC_WIDTH = 128` (D3, log 1) and `NLANES = 8` (D16). -/
def Config.core : Config := { ctrIncWidth := .w128, nLanes := .eight }

/-- `TYPE_MARKER`: "a constant fixed when the hardware is built; its value is not given by the source and is left
as a named parameter" (R192, D18). A free value: it has no body (log 2). -/
opaque Config.typeMarker : List Byte

/-- `BLOCK_BITS` (R10). -/
def blockBits : Nat := 128

/-- `BLOCK_BYTES` (R10). -/
def blockBytes : Nat := 16

/-- `KEY_BITS` (R10). -/
def keyBits : Nat := 128

/-- `NROUNDS` (R10). -/
def nRounds : Nat := 10

/-- `NRK` as a count: round keys, indices 0..10 (R10). -/
def nRoundKeys : Nat := 11

/-- `SEED_BYTES` (R10). -/
def seedBytes : Nat := 32

/-- `LEN_W` (R10, D6). -/
def lenWidth : Nat := 64

end Sys2Proof
end

