-- ==== Sys2Proof/Machine/State.lean ====
section
/-! DEFINITION. The state of vks/aesrng CORE (spec/10_state.md R20 to R43), the ports as far as they hold data between
steps (spec/30_encoding.md R80), the output space of the current or last FILL (spec/20_memory.md R53), and the two
kinds of stop. Plain data throughout. `T` is `SCR[0]` under another name (R34), `BUSY` and `STATUS` are computed
(R27, R28); they have accessors, not fields. -/

namespace Sys2Proof.Machine

/-- A round-key schedule: 11 blocks, "length is always exactly 11" (R20). -/
abbrev Schedule := Vector Block 11

/-- The sequencer's phases (R30). -/
inductive Phase where
  | idle
  | f8
  | f2
  | f1
  | tail
  | rkenc
  | rkexp
  | swap
  | sdexp
  | sdcommit
  | halt
deriving DecidableEq, Repr

/-- `FCODE` (R26), as the three-valued type U7 of spec/93 allows: code 3 is never produced. -/
inductive FCode where
  /-- code 0: no fault -/
  | none
  /-- code 1: the byte consumed as an opcode is reserved (R181) -/
  | illegalCommand
  /-- code 2: a complete FILL while `SEEDED = 0` (R182) -/
  | notSeeded
deriving DecidableEq, Repr

/-- A byte memory: the listed (offset, byte) pairs, offsets strictly rising. An unlisted offset holds no value the
model speaks of. -/
abbrev Memory := List Host.Cell

/-- The `OUT` space of a FILL (R53): `len` bytes, offsets `0 .. len-1`, and the bytes written so far. CORE never
reads it; what the host's buffer held before is nowhere in the model (R41, R54). -/
structure OutSpace where
  len : Nat
  cells : Memory
deriving DecidableEq, Repr

/-- How the host takes part while a command runs: the two granularities of R17 and the `out` handshake of R71. The
model's own field (log 4). -/
inductive Pace where
  /-- the host takes every output byte at once and looks at command boundaries only: a command is ONE step -/
  | prompt
  /-- the host follows the micro-steps and will take `room` more output bytes; after those it holds `out_ready`
  at 0, until it offers more room -/
  | paced (room : Nat)
deriving DecidableEq, Repr

/-- The machine's state. Registers first, by the groups of spec/10_state.md; then the ports. -/
structure State where
  /-- `RK[0..10]`, the round-key schedule (R20) -/
  rk : Schedule
  /-- `CTR`, the counter (R22) -/
  ctr : Block
  /-- `SEEDED` (R25) -/
  seeded : Bool
  /-- `FAULT`, sticky (R26) -/
  fault : Bool
  /-- `FCODE` (R26) -/
  fcode : FCode
  /-- `PHASE`, the sequencer register (R30) -/
  phase : Phase
  /-- `REM`, remaining length of the current FILL (R31) -/
  rem : Len
  /-- `OFF`, offset of the next byte to write (R32) -/
  off : Len
  /-- `SCR[0..7]`, the scratch file; `SCR[0]` is also `T` (R33, R34) -/
  scr : Vector Block 8
  /-- `F`, the counter with its top bit flipped (R35) -/
  f : Block
  /-- `KB`, the key block (R35) -/
  kb : Block
  /-- `NRK[0..10]`, the shadow schedule (R36) -/
  nrk : Schedule
  /-- `SEEDBUF`, the seed latch (R37) -/
  seedbuf : Seed
  /-- `rst`, asserted for the coming step (R80, R200) -/
  rst : Bool
  /-- the bytes the host presents on `cmd` and CORE has not consumed, in order (R50, R80) -/
  cmd : List Byte
  /-- the operand latch: the bytes consumed of a command that is not complete yet (R88 step 3) -/
  latch : List Byte
  /-- the host's side of the `out` handshake and of R17 -/
  pace : Pace
  /-- how many bytes of the micro-step under way the host has taken: the handshake state of R71 -/
  sent : Nat
  /-- the `OUT` space of the current FILL, or of the last one (R53) -/
  out : OutSpace
deriving DecidableEq, Repr

/-- The model's faults: the machine has no next state. -/
inductive Fault where
  /-- `PHASE = HALT` and `rst` is not asserted: "in HALT ... no micro-step is enabled" (R184; U6: stuck until reset).
  Raised by `step`. Safe: the hardware does nothing either. -/
  | halted
  /-- the sequencer is in an output phase or in RKENC whose "enabled when" column in R151 does not hold of `REM`:
  no rule gives a step. Raised by the micro-steps. Safe: no state that a run reaches is one (`State.Inv`). -/
  | notEnabled
  /-- a `MemWrite` outside offsets `0 .. LEN-1` (R54, R55): there is no such byte. Raised by the output micro-steps.
  Safe: no state that a run reaches does it (`State.Inv`). -/
  | outsideOut
deriving DecidableEq, Repr

/-- The model's refusals. -/
inductive Refusal where
  /-- an instruction whose meaning is not written; raised by an arm of `exec` only. No arm does. Safe. -/
  | notModelled (mnemonic : String)
deriving DecidableEq, Repr

/-- The all-zero schedule. -/
def Schedule.zero : Schedule := Vector.replicate 11 0#128

/-- The scratch file at reset and after every command: all zero (R33, R38). -/
def scratchZero : Vector Block 8 := Vector.replicate 8 0#128

/-- The state right after reset (R43, R200): every register zero, unseeded, no fault, idle. The host's side: it
presents nothing, asserts nothing, has no buffer yet and is prompt (log 3, log 4, log 5). -/
def State.reset : State where
  rk := Schedule.zero
  ctr := 0#128
  seeded := false
  fault := false
  fcode := .none
  phase := .idle
  rem := 0#64
  off := 0#64
  scr := scratchZero
  f := 0#128
  kb := 0#128
  nrk := Schedule.zero
  seedbuf := 0#256
  rst := false
  cmd := []
  latch := []
  pace := .prompt
  sent := 0
  out := { len := 0, cells := [] }

end Sys2Proof.Machine
end

