-- ==== Sys2Proof/Machine/KeySchedule.lean ====
section
/-! DEFINITION. The key schedule expander (spec/41_key_schedule.md R120 to R128). -/

namespace Sys2Proof.Machine

/-- The round constants `RC[1..10]` (R121); no rule reads another index. -/
def roundConstant : Nat → Byte
  | 1 => 1#8
  | 2 => 2#8
  | 3 => 4#8
  | 4 => 8#8
  | 5 => 16#8
  | 6 => 32#8
  | 7 => 64#8
  | 8 => 128#8
  | 9 => 27#8
  | 10 => 54#8
  | _ => 0#8

/-- `KSROUND` (R122): each self-shift-and-XOR step shifts the running value. -/
def ksRound (p : Block) (rc : Byte) : Block :=
  let t := bcast3 (ksAssist p rc)
  let k1 := p ^^^ shl32 p
  let k2 := k1 ^^^ shl32 k1
  let k3 := k2 ^^^ shl32 k2
  k3 ^^^ t

/-- `K[i]` of `EXPAND(key)` (R123). -/
def roundKey (key : Block) : Nat → Block
  | 0 => key
  | i + 1 => ksRound (roundKey key i) (roundConstant (i + 1))

/-- `EXPAND` (R123): the eleven round keys. -/
def expand (key : Block) : Schedule := Vector.ofFn fun i => roundKey key i.val

/-- `RK[i]`; `i` is only ever a constant `0 .. 10` of the round structure (R42). -/
def keyAt (rk : Schedule) (i : Nat) : Block := rk.getD i 0#128

end Sys2Proof.Machine
end

