-- ==== Sys2Proof/Machine/Counter.lean ====
section
/-! DEFINITION. Block production and the counter adder (spec/42_block_encrypt.md R130 to R137), and the flip and the
rekey function (spec/44_rekey.md R160, R166). -/

namespace Sys2Proof.Machine

/-- The state after the whitening and `n` full rounds, with round keys `1 .. n` (R130). -/
def encRounds (rk : Schedule) (b : Block) : Nat → Block
  | 0 => b ^^^ keyAt rk 0
  | n + 1 => cipherRound (encRounds rk b n) (keyAt rk (n + 1))

/-- `ENCBLK` (R130): whiten, nine full rounds, the last round with round key 10. -/
def encBlk (rk : Schedule) (b : Block) : Block := lastRound (encRounds rk b 9) (keyAt rk 10)

/-- `CTRADD` (R133, R134): with width 128 modulo `2^128`, carry out dropped; with width 64 on the low 64 bits only,
the upper half unchanged. -/
def ctrAdd (w : AdderWidth) (c : Block) (k : Nat) : Block :=
  match w with
  | .w128 => blk ((val c + k) % 2 ^ 128)
  | .w64 => blk (val c / 2 ^ 64 * 2 ^ 64 + (val c % 2 ^ 64 + k) % 2 ^ 64)

/-- `FLIP` (R160): the fixed constant `2^127`. -/
def flipBlock : Block := blk (2 ^ 127)

/-- `OB(rk, c, j)`, the `j`-th output block of a fill that starts at `c` (R136). -/
def outBlock (w : AdderWidth) (rk : Schedule) (c : Block) (j : Nat) : Block := encBlk rk (ctrAdd w c j)

/-- The bytes of the first `n` output blocks, one after the other, each byte 0 first (R140, R56). -/
def streamBytes (w : AdderWidth) (rk : Schedule) (c : Block) (n : Nat) : List Byte :=
  (List.range n).flatMap fun j => blockBytesOf (outBlock w rk c j)

/-- `ceil(n / 16)`: the blocks encrypted for `n` output bytes (R140, R147). -/
def blockCount (n : Nat) : Nat := (n + 15) / 16

/-- The key block of a rekey at counter `c`, under the schedule about to be discarded (R160, R161). -/
def keyBlock (rk : Schedule) (c : Block) : Block := encBlk rk (c ^^^ flipBlock)

/-- `REKEY(rk, c)` (R166). -/
def rekey (rk : Schedule) (c : Block) : Schedule := expand (keyBlock rk c)

end Sys2Proof.Machine
end

