-- ==== Sys2Proof/Machine/Flags.lean ====
section
/-! DEFINITION. Status: `BUSY`, `STATUS`, `FCODE`'s bits (spec/10_state.md R25 to R29), `cmd_ready` (spec/30_encoding.md
R80, R88), and what an identification read may return (spec/60_exceptions.md R192). No arithmetic flag exists (R29). -/

namespace Sys2Proof.Machine

/-- `FCODE` as its two bits (R26). -/
def FCode.bits : FCode → BitVec 2
  | .none => 0#2
  | .illegalCommand => 1#2
  | .notSeeded => 2#2

/-- `BUSY` (R27). -/
def State.busy (s : State) : Bool := s.phase != .idle && s.phase != .halt

/-- `STATUS` (R28): bit 0 `SEEDED`, bit 1 `BUSY`, bit 2 `FAULT`, bits 4:3 `FCODE`, bits 7:5 zero. While `rst` is asserted
it shows the registers as they stand before the reset step (log 23). -/
def State.status (s : State) : BitVec 8 :=
  0#3 ++ s.fcode.bits ++ BitVec.ofBool s.fault ++ BitVec.ofBool s.busy ++ BitVec.ofBool s.seeded

/-- `cmd_ready` (R80, R88 step 1). While a command's operand bytes are collected `PHASE` is still `IDLE` and `BUSY`
is 0, so R80's second case is this one too. While `rst` is asserted R80 gives the port no value; the model lets it read
as the registers stand before the reset step (DESIGN CHOICE, log 23). -/
def State.cmdReady (s : State) : Bool := s.phase == .idle && !s.fault

/-- What an identification or debug read returns, if an implementation has one: a function of `TYPE_MARKER` and
`STATUS` alone (R192). CORE itself has no such port. -/
def State.identify (s : State) : List Byte × BitVec 8 := (Config.typeMarker, s.status)

end Sys2Proof.Machine
end

