-- ==== Sys2Proof/Machine/Ops.lean ====
section
/-! DEFINITION. The named operations over the output space and the registers: reading and writing `OUT`
(spec/20_memory.md R53 to R55), the host's side of the `out` handshake (R71), fault entry (spec/60_exceptions.md
R184), reset, which is the only way out of a fault (R185, spec/70_reset_and_hazards.md R200, R203), and the erasure
of the ephemeral registers (spec/10_state.md R38). -/

namespace Sys2Proof.Machine

/-- The byte at an offset, if one is listed. -/
def Memory.read : Memory → Nat → Option Byte
  | [], _ => none
  | (k, v) :: rest, a => if a = k then some v else Memory.read rest a

/-- One byte written; the offsets stay strictly rising. -/
def Memory.write : Memory → Nat → Byte → Memory
  | [], a, b => [(a, b)]
  | (k, v) :: rest, a, b =>
    if a < k then (a, b) :: (k, v) :: rest
    else if a = k then (a, b) :: rest
    else (k, v) :: Memory.write rest a b

/-- Bytes written to ascending offsets from `a`, the first to `a` (R55, R66). -/
def Memory.writeBytes : Memory → Nat → List Byte → Memory
  | m, _, [] => m
  | m, a, b :: bs => Memory.writeBytes (Memory.write m a b) (a + 1) bs

/-- The canonical form: offsets strictly rising. No entry equals what an unlisted offset reads as, since that is no
value at all. -/
abbrev Memory.wf (m : Memory) : Prop := (m.map Prod.fst).Pairwise (· < ·)

/-- A new `OUT` space for a FILL of length `n`: `n` bytes, none written (R53). -/
def OutSpace.fresh (n : Nat) : OutSpace := { len := n, cells := [] }

/-- Whether `MemWrite(OUT, a, n, v)` stays inside the space: `a + n <= LEN` (R55). -/
def OutSpace.admits (o : OutSpace) (a n : Nat) : Bool := decide (a + n ≤ o.len)

/-- `MemWrite(OUT, a, n, v)` with `n` the length of `v` (R55). -/
def OutSpace.write (o : OutSpace) (a : Nat) (bs : List Byte) : OutSpace :=
  { o with cells := o.cells.writeBytes a bs }

/-- The byte at an offset, as the host finds it after the FILL; `none` where the FILL has written nothing. -/
def OutSpace.read (o : OutSpace) (a : Nat) : Option Byte := o.cells.read a

/-- How many of `n` offered output bytes the host takes now (R71). -/
def Pace.takes : Pace → Nat → Nat
  | .prompt, n => n
  | .paced room, n => min room n

/-- The host's side after it has taken `n` bytes. -/
def Pace.after : Pace → Nat → Pace
  | .prompt, _ => .prompt
  | .paced room, n => .paced (room - n)

/-- `T`, the tail block: `SCR[0]` under another name (R34). -/
def State.t (s : State) : Block := s.scr[0]

/-- The first `n` scratch registers take the blocks `g 0 .. g (n-1)`; the others keep theirs. -/
def scratchWith (scr : Vector Block 8) (n : Nat) (g : Nat → Block) : Vector Block 8 :=
  Vector.ofFn fun i => if i.val < n then g i.val else scr[i]

/-- The erasure that ends every command: `SCR[0..7]` (so `T` too), `F`, `KB`, `NRK[0..10]` and `SEEDBUF` are
written with zero (R38, R164, R172). -/
def State.erase (s : State) : State :=
  { s with scr := scratchZero, f := 0#128, kb := 0#128, nrk := Schedule.zero, seedbuf := 0#256 }

/-- `raise Fault(code)` (R184): three registers and nothing else. No state is saved and no handler runs. -/
def raiseFault (code : FCode) (s : State) : State :=
  { s with fault := true, fcode := code, phase := .halt }

/-- Reset (R200): every register takes its reset value and a partly received command is dropped; the way back from
a fault (R185). What is the host's stays: the bytes it presents, its pace, and its buffer, which holds the bytes
written before the reset (R203). The assertion of `rst` is over with the step (log 5). -/
def takeReset (s : State) : State :=
  { State.reset with cmd := s.cmd, pace := s.pace, out := s.out }

/-- A command is accepted only when `PHASE = IDLE` and `FAULT = 0` (R88 step 1, R140, R170); that is `cmd_ready`. -/
def State.ready (s : State) : Bool := s.cmdReady

end Sys2Proof.Machine
end

