-- ==== Sys2Proof/Machine/Fill.lean ====
section
/-! DEFINITION. The FILL command (spec/43_fill.md R140 to R159) and the rekeying engine that ends it (spec/44_rekey.md R160 to
R169): as one command step, as acceptance and micro-steps, and its meaning. -/

namespace Sys2Proof.Machine

/-- FILL as one command step (R140), for any natural `n`. All blocks and the key block are encrypted under the
schedule the command started with; the rekey is unconditional (R165); the counter runs on without the flip. `OFF`
ends at the length and `REM` at 0, as the micro-steps leave them (R31, R32, log 6). So two FILLs of different lengths
with equally many blocks end alike in every register but `OFF`: the equality of states in R156 is read as not taking in
`OFF` (DESIGN CHOICE, log 24). -/
def fillCommand (c : Config) (n : Nat) (s : State) : State :=
  let bytes := (streamBytes c.ctrIncWidth s.rk s.ctr (blockCount n)).take n
  let ctr' := ctrAdd c.ctrIncWidth s.ctr (blockCount n)
  { s.erase with
    rk := rekey s.rk ctr'
    ctr := ctr'
    rem := 0#64
    off := lenOf n
    sent := 0
    out := (OutSpace.fresh n).write 0 bytes }

/-- `select` (R142): all four thresholds are strict. With one lane there are no regimes 1 and 2 (R149). -/
def select (c : Config) (r : Nat) : Phase :=
  match c.nLanes with
  | .eight =>
    if 128 < r then .f8 else if 32 < r then .f2 else if 16 < r then .f1 else if 0 < r then .tail else .rkenc
  | .one => if 16 < r then .f1 else if 0 < r then .tail else .rkenc

/-- Acceptance of FILL (R88 step 5, R142): the length goes to `REM`, the output space is new. -/
def acceptFill (c : Config) (n : Nat) (s : State) : State :=
  { s with rem := lenOf n, off := 0#64, sent := 0, out := OutSpace.fresh n, phase := select c n }

/-- The blocks an output phase encrypts in one micro-step (R143 to R146). -/
def outputBlocks : Phase → Nat
  | .f8 => 8
  | .f2 => 2
  | .f1 => 1
  | .tail => 1
  | .idle | .rkenc | .rkexp | .swap | .sdexp | .sdcommit | .halt => 0

/-- The bytes an output phase writes in one micro-step (R143 to R146): whole blocks, but `REM` bytes in the tail. -/
def State.outputCount (s : State) : Nat :=
  match s.phase with
  | .f8 => 128
  | .f2 => 32
  | .f1 => 16
  | .tail => s.rem.toNat
  | .idle | .rkenc | .rkexp | .swap | .sdexp | .sdcommit | .halt => 0

/-- The bytes of the output micro-step under way: the first `outputCount` bytes of the blocks at `CTR`, `CTR + 1`, ... -/
def State.outputBytes (c : Config) (s : State) : List Byte :=
  (streamBytes c.ctrIncWidth s.rk s.ctr (outputBlocks s.phase)).take s.outputCount

/-- `out_valid` (R80): the micro-step under way has a byte the host has not taken. While `rst` is asserted R80 gives the
port no value; the model lets it read as the registers stand before the reset step (DESIGN CHOICE, log 23). -/
def State.outValid (s : State) : Bool := decide (s.sent < s.outputCount)

/-- `out_data` while `out_valid` is 1 (R80): the next byte, in ascending offset order (R66). -/
def State.outData (c : Config) (s : State) : Option Byte := (s.outputBytes c)[s.sent]?

/-- The register writes of an output micro-step, all together at its end (R143 to R146, R16). The next phase is
`select` of what remains, which R145 and R146 write out as `TAIL` and `RKENC`. -/
def commitOutput (c : Config) (s : State) : State :=
  let left := s.rem - BitVec.ofNat 64 s.outputCount
  { s with
    scr := scratchWith s.scr (outputBlocks s.phase) (outBlock c.ctrIncWidth s.rk s.ctr)
    ctr := ctrAdd c.ctrIncWidth s.ctr (outputBlocks s.phase)
    off := s.off + BitVec.ofNat 64 s.outputCount
    rem := left
    phase := select c left.toNat
    sent := 0 }

/-- How many bytes of the output micro-step under way the host takes now (R71). -/
def State.took (s : State) : Nat := s.pace.takes (s.outputCount - s.sent)

/-- The transfer of those bytes: they are stored at ascending offsets (R55, R66), and no register but the handshake
state moves (R71). -/
def takeOutput (c : Config) (s : State) : State :=
  { s with
    out := s.out.write (s.off.toNat + s.sent) (((s.outputBytes c).drop s.sent).take s.took)
    pace := s.pace.after s.took
    sent := s.sent + s.took }

/-- An output micro-step, phases `F8`, `F2`, `F1`, `TAIL` (R143 to R146, enabled as R151 says). The host takes as
many of its bytes as its pace allows; once it has taken all of them the registers are written. -/
def outputStep (c : Config) (s : State) : Host.Outcome State Fault Refusal :=
  if s.phase = select c s.rem.toNat then
    if s.out.admits (s.off.toNat + s.sent) s.took then
      if s.outputCount ≤ s.sent + s.took then .next (commitOutput c (takeOutput c s)) else .next (takeOutput c s)
    else .fault .outsideOut
  else .fault .notEnabled

/-- The writes of phase `RKENC` (R160, R161): the flip is local, `CTR` is not written. -/
def rkencWrites (s : State) : State :=
  { s with f := s.ctr ^^^ flipBlock, kb := encBlk s.rk (s.ctr ^^^ flipBlock), phase := .rkexp }

/-- Phase `RKENC`, enabled when `REM = 0` (R151). -/
def rkencStep (s : State) : Host.Outcome State Fault Refusal :=
  if s.rem = 0#64 then .next (rkencWrites s) else .fault .notEnabled

/-- Phase `RKEXP` (R162): into the shadow schedule; `RK` is not touched. -/
def rkexpStep (s : State) : State := { s with nrk := expand s.kb, phase := .swap }

/-- Phase `SWAP` (R163, R164): all eleven entries and the erasure in one step. -/
def swapStep (s : State) : State := { s.erase with rk := s.nrk, phase := .idle }

/-- The meaning of `FILL n`. A CORE that is not ready lets the command wait (R88). An unseeded one takes the fault
`NotSeeded` (R140, R182). A prompt host sees the command step; a pacing host sees it accepted, and the micro-steps
follow (R17, log 4). -/
def execFill (n : Nat) (s : State) : Host.Outcome State Fault Refusal :=
  if s.ready then
    if s.seeded then
      match s.pace with
      | .prompt => .next (fillCommand Config.core n s)
      | .paced _ => .next (acceptFill Config.core n s)
    else .next (raiseFault .notSeeded s)
  else .next s

end Sys2Proof.Machine
end

