-- ==== Sys2Proof/Machine/Seed.lean ====
section
/-! DEFINITION. The SEED command (spec/45_seed.md R170 to R176): as one command step, as acceptance and two
micro-steps, and its meaning. -/

namespace Sys2Proof.Machine

/-- SEED as one command step (R170), with the erasure that ends every command (R38, R172). It writes nothing to
`OUT` and does not rekey. `OFF` goes to 0, so that no register keeps anything of the commands before (R173, log 6). -/
def seedCommand (x : Seed) (s : State) : State :=
  { s.erase with rk := expand (seedKey x), ctr := seedCounter x, seeded := true, off := 0#64 }

/-- Acceptance of SEED (R88 step 5, R170). -/
def acceptSeed (x : Seed) (s : State) : State := { s with seedbuf := x, phase := .sdexp }

/-- Phase `SDEXP` (R170). -/
def sdexpStep (s : State) : State := { s with nrk := expand (seedKey s.seedbuf), phase := .sdcommit }

/-- Phase `SDCOMMIT` (R170, R172): schedule, counter, flag and erasure in one step; `OFF` goes to 0 (R173, log 6). -/
def sdcommitStep (s : State) : State :=
  { s.erase with rk := s.nrk, ctr := seedCounter s.seedbuf, seeded := true, off := 0#64, phase := .idle }

/-- The meaning of `SEED x`. A CORE that is not ready lets the command wait (R88, R140). A prompt host sees the
command step; a pacing host sees it accepted, and the micro-steps follow (R17, log 4). -/
def execSeed (x : Seed) (s : State) : Host.Outcome State Fault Refusal :=
  if s.ready then
    match s.pace with
    | .prompt => .next (seedCommand x s)
    | .paced _ => .next (acceptSeed x s)
  else .next s

end Sys2Proof.Machine
end

