-- ==== Sys2Proof/Syntax.lean ====
section
/-! DEFINITION. The command set, whole: one constructor per row of spec/opcode_table.json (spec/30_encoding.md R85,
R91). The pseudo-command REKEY is FILL with length 0 (R90) and has no constructor of its own. -/

namespace Sys2Proof

/-- A command (R91). -/
inductive Instr where
  /-- `SEED s`, opcode `0x01` (R82, R170). The operand is exactly 32 bytes, byte `a` at bits `8a+7 .. 8a`; "a
  shorter or longer seed cannot be expressed". -/
  | seed (s : Seed)
  /-- `FILL n`, opcode `0x02` (R83, R140). Its meaning is written for any natural `n`, as R83 allows; that the
  encoding holds only `n < 2^64` is a check of `Instr.WellFormed`. -/
  | fill (n : Nat)
deriving DecidableEq, Repr

/-- The pseudo-command `REKEY` (R90). -/
def Instr.rekey : Instr := .fill 0

end Sys2Proof
end

