-- ==== Sys2Proof/Machine/Dispatch.lean ====
section
/-! DEFINITION. Which meaning each command has (spec/30_encoding.md R85). -/

namespace Sys2Proof.Machine

def exec (i : Instr) (s : State) : Host.Outcome State Fault Refusal :=
  match i with
  | .seed x => Sys2Proof.Machine.execSeed x s
  | .fill n => Sys2Proof.Machine.execFill n s

end Sys2Proof.Machine
end

