-- ==== Sys2Proof/WellFormed.lean ====
section
/-! DEFINITION. Which commands the encoding can express (spec/30_encoding.md R82, R83, R91): every seed, and every
length below `2^LEN_W`. -/

namespace Sys2Proof

/-- Every 32-byte seed is legal (R82); a length is a natural in `0 .. 2^64 - 1` (R83, D6). -/
abbrev Instr.WellFormed (i : Instr) : Prop :=
  match i with
  | .seed _ => True
  | .fill n => n < 2 ^ lenWidth

end Sys2Proof
end

