-- ==== Sys2Proof/Decode.lean ====
section
/-! DEFINITION. Command encoding (spec/30_encoding.md R81 to R91): the decoder, total on any bytes, and after it
the encoder, written from the same two formats; the command as the bit vector of R81; and the textual command
syntax of R89 and R90. -/

namespace Sys2Proof

/-- The `n` bytes of a natural, least significant first. -/
def leBytes : Nat → Nat → List Byte
  | 0, _ => []
  | n + 1, v => BitVec.ofNat 8 v :: leBytes n (v / 256)

/-- The natural of a byte sequence, least significant byte first (R83: `sum of C[1+k] * 2^(8k)`). -/
def ofLEBytes : List Byte → Nat
  | [] => 0
  | b :: bs => b.toNat + 256 * ofLEBytes bs

/-- The opcode of SEED (R82, R85). -/
def opSeed : Byte := 0x01#8

/-- The opcode of FILL (R83, R85). -/
def opFill : Byte := 0x02#8

/-- What the decoder answers (R91). -/
inductive Decoded where
  /-- a whole command, and the bytes after it -/
  | command (i : Instr) (rest : List Byte)
  /-- the first byte is no opcode; only it is consumed (R84, R86) -/
  | illegal (opcode : Byte) (rest : List Byte)
  /-- a legal opcode, or nothing yet, followed by fewer bytes than its format needs: not an error (R91) -/
  | incomplete
deriving DecidableEq, Repr

/-- How many bytes the command with this opcode has; a reserved opcode is consumed alone (R84, R86). -/
def commandLength (opcode : Byte) : Nat :=
  if opcode = opSeed then 33 else if opcode = opFill then 9 else 1

/-- Format S: the 32 bytes after the opcode are the seed, byte 0 first (R82). -/
def seedOfBytes (bs : List Byte) : Seed := BitVec.ofNat 256 (ofLEBytes bs)

/-- The decoder (R84, R85, R91): the opcode tells the length; `0x00` and `0x03 .. 0xFF` are reserved. -/
def decode : List Byte → Decoded
  | [] => .incomplete
  | op :: rest =>
    if op = opSeed then
      if 32 ≤ rest.length then .command (.seed (seedOfBytes (rest.take 32))) (rest.drop 32) else .incomplete
    else if op = opFill then
      if 8 ≤ rest.length then .command (.fill (ofLEBytes (rest.take 8))) (rest.drop 8) else .incomplete
    else .illegal op rest

/-- The encoder (R82, R83): the opcode, then the operand's bytes. -/
def encode : Instr → List Byte
  | .seed s => opSeed :: leBytes 32 s.toNat
  | .fill n => opFill :: leBytes 8 n

/-- A command as a number: byte `C[k]` at bits `8k+7 .. 8k` (R81). -/
def encodeBits (i : Instr) : Nat := ofLEBytes (encode i)

/-- The bytes of the command whose bits, numbered as spec/opcode_table.json numbers them, are `w`, of which the first
`nbits` (whole bytes) count; every bit above them is zero. Just the bytes of that one command: its opcode tells how
many. -/
def commandBytes (nbits w : Nat) : List Byte :=
  (leBytes (nbits / 8) w ++ List.replicate 33 0#8).take
    (commandLength (if nbits < 8 then 0#8 else BitVec.ofNat 8 w))

/-- The command the decoder reads from a table word. -/
def decodeTableWord (nbits w : Nat) : Option Instr :=
  match decode (commandBytes nbits w) with
  | .command i _ => some i
  | .illegal _ _ => none
  | .incomplete => none

/-! The textual syntax of R89: `SEED <hex64>` with seed byte 0 first, `FILL <n>` with `n` a decimal natural below
2^64, and the pseudo-command `REKEY` of R90. Text is a list of characters, so that the kernel can compute it. -/

/-- A digit's character, `0 .. 9`, `a .. f`. -/
def digitChar (d : Nat) : Char :=
  if d < 10 then Char.ofNat (48 + d) else Char.ofNat (87 + d)

/-- A character's digit: decimal digits, and hexadecimal digits of either case. -/
def charDigit (c : Char) : Option Nat :=
  if 48 ≤ c.toNat ∧ c.toNat ≤ 57 then some (c.toNat - 48)
  else if 97 ≤ c.toNat ∧ c.toNat ≤ 102 then some (c.toNat - 87)
  else if 65 ≤ c.toNat ∧ c.toNat ≤ 70 then some (c.toNat - 55)
  else none

/-- The decimal digits of `n`, at most `fuel` of them, put before `acc`. -/
def decimalDigits : Nat → Nat → List Char → List Char
  | 0, _, acc => acc
  | fuel + 1, n, acc =>
    if n < 10 then digitChar n :: acc else decimalDigits fuel (n / 10) (digitChar (n % 10) :: acc)

/-- A byte as two hexadecimal digits, high digit first. -/
def hexOfByte (b : Byte) : List Char := [digitChar (b.toNat / 16), digitChar (b.toNat % 16)]

/-- The hexadecimal digits of a byte sequence. -/
def hexOfBytes : List Byte → List Char
  | [] => []
  | b :: bs => hexOfByte b ++ hexOfBytes bs

/-- The byte sequence of a string of hexadecimal digit pairs. -/
def bytesOfHex : List Char → Option (List Byte)
  | [] => some []
  | [_] => none
  | h :: l :: cs =>
    match charDigit h, charDigit l, bytesOfHex cs with
    | some a, some b, some bs => some (BitVec.ofNat 8 (16 * a + b) :: bs)
    | _, _, _ => none

/-- The natural of a string of decimal digits, read on from `acc`. -/
def naturalOfDecimal : List Char → Nat → Option Nat
  | [], acc => some acc
  | c :: cs, acc =>
    match charDigit c with
    | some d => if d < 10 then naturalOfDecimal cs (10 * acc + d) else none
    | none => none

/-- A command as text (R89). -/
def commandText : Instr → List Char
  | .seed s => 'S' :: 'E' :: 'E' :: 'D' :: ' ' :: hexOfBytes (leBytes 32 s.toNat)
  | .fill n => 'F' :: 'I' :: 'L' :: 'L' :: ' ' :: decimalDigits 20 n []

/-- The command a line of text stands for (R89, R90), if it is one. -/
def parseCommand : List Char → Option Instr
  | 'S' :: 'E' :: 'E' :: 'D' :: ' ' :: hex =>
    match bytesOfHex hex with
    | some bs => if bs.length = 32 then some (.seed (seedOfBytes bs)) else none
    | none => none
  | 'F' :: 'I' :: 'L' :: 'L' :: ' ' :: c :: cs =>
    match naturalOfDecimal (c :: cs) 0 with
    | some n => if n < 2 ^ lenWidth then some (.fill n) else none
    | none => none
  | ['R', 'E', 'K', 'E', 'Y'] => some .rekey
  | _ => none

end Sys2Proof
end

