-- ==== Sys2Proof/Machine/Fetch.lean ====
section
/-! DEFINITION. Taking a command's bytes from the `CMD` stream (spec/20_memory.md R50, spec/30_encoding.md R88), and what the
host can do at the ports between two steps (R80, spec/00_scope.md R19). -/

namespace Sys2Proof.Machine

/-- What CORE does with the bytes at `cmd` when no command is under way. -/
inductive Fetched where
  /-- a whole command: run it in this state, where its bytes are consumed -/
  | run (i : Instr) (s : State)
  /-- a reserved opcode, consumed; no operand byte is (R86, R181) -/
  | reserved (s : State)
  /-- nothing to run yet: every byte presented is in the operand latch (R88 step 3, R91) -/
  | wait (s : State)
deriving DecidableEq, Repr

/-- Consumption (R88 steps 1 to 3): bytes are consumed only while `cmd_ready`, in order and once; a command's bytes
stand in the latch until the last one arrives. -/
def fetch (s : State) : Fetched :=
  if s.cmdReady then
    match decode (s.latch ++ s.cmd) with
    | .command i rest => .run i { s with latch := [], cmd := rest }
    | .illegal _ rest => .reserved { s with latch := [], cmd := rest }
    | .incomplete => .wait { s with latch := s.latch ++ s.cmd, cmd := [] }
  else .wait s

/-- The host presents more bytes on `cmd`, after those it already presents (R50). -/
def hostPresents (bs : List Byte) (s : State) : State := { s with cmd := s.cmd ++ bs }

/-- The host withdraws the bytes CORE has not consumed. -/
def hostWithdraws (s : State) : State := { s with cmd := [] }

/-- The host asserts `rst` for the coming step (R200). -/
def hostResets (s : State) : State := { s with rst := true }

/-- The host changes how it takes part: prompt, or with room for so many output bytes (R71). -/
def hostPaces (p : Pace) (s : State) : State := { s with pace := p }

end Sys2Proof.Machine
end

