-- ==== Sys2Proof/Machine/Sequencer.lean ====
section
/-! DEFINITION. The sequencer: one micro-step of the command under way (the transition table of spec/43_fill.md R151 with
the two phases of SEED of spec/45_seed.md R170), and micro-steps in a row. -/

namespace Sys2Proof.Machine

/-- One micro-step, by `PHASE`. In `IDLE` there is no command under way and CORE waits (R197); in `HALT` no
micro-step is enabled (R184). -/
def microStep (c : Config) (s : State) : Host.Outcome State Fault Refusal :=
  match s.phase with
  | .idle => .next s
  | .f8 => outputStep c s
  | .f2 => outputStep c s
  | .f1 => outputStep c s
  | .tail => outputStep c s
  | .rkenc => rkencStep s
  | .rkexp => .next (rkexpStep s)
  | .swap => .next (swapStep s)
  | .sdexp => .next (sdexpStep s)
  | .sdcommit => .next (sdcommitStep s)
  | .halt => .fault .halted

/-- `n` micro-steps in a row. -/
def microRun (c : Config) : Nat → State → Host.Outcome State Fault Refusal
  | 0, s => .next s
  | n + 1, s =>
    match microStep c s with
    | .next t => microRun c n t
    | .fault r => .fault r
    | .refused r => .refused r

end Sys2Proof.Machine
end

