-- ==== Sys2Proof/Machine/Step.lean ====
section
/-! DEFINITION. One step of the machine. Reset wins over everything (spec/60_exceptions.md R187); with no command under way
CORE consumes command bytes and runs the command they spell (spec/30_encoding.md R88); with one under way it makes that
command's next micro-step (spec/20_memory.md R65). -/

namespace Sys2Proof.Machine

/-- One step. -/
def step (s : State) : Host.Outcome State Fault Refusal :=
  if s.rst then .next (takeReset s)
  else
    match s.phase with
    | .idle =>
      match fetch s with
      | .run i t => exec i t
      | .reserved t => .next (raiseFault .illegalCommand t)
      | .wait t => .next t
    | .f8 | .f2 | .f1 | .tail | .rkenc | .rkexp | .swap | .sdexp | .sdcommit | .halt => microStep Config.core s

/-- The state with just this one command presented where `step` consumes its next command: its bytes stand on
`cmd`, and what consumption needs holds (no reset, no fault, idle, nothing in the latch). -/
def State.withFetchWord (s : State) (nbits w : Nat) : State :=
  { s with cmd := commandBytes nbits w, latch := [], rst := false, phase := .idle, fault := false }

end Sys2Proof.Machine
end

