-- ==== Sys2Proof/Safety.lean ====
section
/-! DEFINITION. The terms in which claims are made: the machine's invariant, what the host may see, and the effect of an
output micro-step. -/

namespace Sys2Proof.Machine

/-- The output phases (R148). -/
def Phase.isOutput : Phase → Bool
  | .f8 | .f2 | .f1 | .tail => true
  | .idle | .rkenc | .rkexp | .swap | .sdexp | .sdcommit | .halt => false

/-- The phases of a FILL under way (R151). -/
def Phase.isFill : Phase → Bool
  | .f8 | .f2 | .f1 | .tail | .rkenc | .rkexp | .swap => true
  | .idle | .sdexp | .sdcommit | .halt => false

/-- No command is under way. -/
def Phase.isRest : Phase → Bool
  | .idle | .halt => true
  | .f8 | .f2 | .f1 | .tail | .rkenc | .rkexp | .swap | .sdexp | .sdcommit => false

/-- Every ephemeral register is zero (R38). -/
def State.Erased (s : State) : Prop :=
  s.scr = scratchZero ∧ s.f = 0#128 ∧ s.kb = 0#128 ∧ s.nrk = Schedule.zero ∧ s.seedbuf = 0#256

/-- What holds of every state a run reaches. -/
structure State.Inv (c : Config) (s : State) : Prop where
  /-- `FAULT = 1` exactly in `HALT` (R184, R185) -/
  faultHalt : s.fault = true ↔ s.phase = .halt
  /-- `FCODE` is 0 exactly while `FAULT = 0` (R26) -/
  codeFault : s.fcode = .none ↔ s.fault = false
  /-- until the first SEED commits, `RK` and `CTR` keep their reset values (R20, R22, R182) -/
  unseededZero : s.seeded = false → s.rk = Schedule.zero ∧ s.ctr = 0#128
  /-- the schedule is the expansion of its own entry 0 (R21), and in every phase -/
  scheduleExpanded : s.seeded = true → s.rk = expand (keyAt s.rk 0)
  /-- the latch holds a command still incomplete, and only while idle (R88) -/
  latchPartial : s.latch ≠ [] → s.phase = .idle ∧ decode s.latch = .incomplete
  /-- between commands the ephemeral registers and `REM` are zero (R31, R38) -/
  restErased : s.phase.isRest = true → s.Erased ∧ s.rem = 0#64
  /-- in an output phase the phase is the one `select` gives of `REM`, and bytes of its micro-step remain (R151) -/
  outputEnabled : s.phase.isOutput = true → s.phase = select c s.rem.toNat ∧ s.sent < s.outputCount
  /-- outside the output phases no micro-step's bytes are half taken -/
  sentZero : s.phase.isOutput = false → s.sent = 0
  /-- a FILL runs seeded, with `OFF + REM = LEN` (R32) and a length the register holds (R83) -/
  fillLength : s.phase.isFill = true →
    s.seeded = true ∧ s.off.toNat + s.rem.toNat = s.out.len ∧ s.out.len < 2 ^ lenWidth
  /-- the bytes written by a FILL under way are those below `OFF`, and those of the micro-step the host has taken -/
  fillWritten : s.phase.isFill = true → s.out.cells.length = s.off.toNat + s.sent
  /-- once the output is done `REM` is 0 (R31, R151); SEED leaves it 0 -/
  remZero : s.phase.isFill = true ∧ s.phase.isOutput = false ∨ s.phase = .sdexp ∨ s.phase = .sdcommit → s.rem = 0#64
  /-- the key block is the encryption of the flipped counter under the old schedule (R160, R161) -/
  keyBlockReady : s.phase = .rkexp ∨ s.phase = .swap → s.f = s.ctr ^^^ flipBlock ∧ s.kb = keyBlock s.rk s.ctr
  /-- the shadow schedule is complete before the swap (R36, R162) -/
  shadowReady : s.phase = .swap → s.nrk = rekey s.rk s.ctr
  /-- the shadow schedule is complete before a seed is committed (R36, R170) -/
  seedReady : s.phase = .sdcommit → s.nrk = expand (seedKey s.seedbuf)
  /-- what is written of the output space is a prefix of it, each offset listed once (R54, R203) -/
  prefixWritten : s.out.cells.map Prod.fst = List.range s.out.cells.length ∧ s.out.cells.length ≤ s.out.len

/-- All the host can see or already knows: status, handshakes, its own bytes and buffer offsets, the sequencer's
position. Not the contents of `RK`, `CTR`, the ephemeral registers or the output bytes (R23, R28, R191). -/
structure PublicView where
  seeded : Bool
  fault : Bool
  fcode : FCode
  phase : Phase
  rem : Len
  off : Len
  rst : Bool
  cmd : List Byte
  latch : List Byte
  pace : Pace
  sent : Nat
  outLen : Nat
  outOffsets : List Nat
deriving DecidableEq, Repr

/-- The public part of a state. -/
def State.publicView (s : State) : PublicView where
  seeded := s.seeded
  fault := s.fault
  fcode := s.fcode
  phase := s.phase
  rem := s.rem
  off := s.off
  rst := s.rst
  cmd := s.cmd
  latch := s.latch
  pace := s.pace
  sent := s.sent
  outLen := s.out.len
  outOffsets := s.out.cells.map Prod.fst

/-- Two outcomes the host cannot tell apart by anything but output bytes. -/
def SamePublic : Host.Outcome State Fault Refusal → Host.Outcome State Fault Refusal → Prop
  | .next s, .next t => s.publicView = t.publicView
  | .fault a, .fault b => a = b
  | .refused a, .refused b => a = b
  | .next _, .fault _ | .next _, .refused _ | .fault _, .next _ | .fault _, .refused _
  | .refused _, .next _ | .refused _, .fault _ => False

/-- The registers and ports an output micro-step never touches: all but `SCR`, `CTR`, `OFF`, `REM`, `PHASE`, the
output space's bytes and the handshake (R141, R148). -/
def SameOutsideOutput (s t : State) : Prop :=
  t.rk = s.rk ∧ t.seeded = s.seeded ∧ t.fault = s.fault ∧ t.fcode = s.fcode ∧ t.f = s.f ∧ t.kb = s.kb ∧
  t.nrk = s.nrk ∧ t.seedbuf = s.seedbuf ∧ t.rst = s.rst ∧ t.cmd = s.cmd ∧ t.latch = s.latch ∧ t.out.len = s.out.len

/-- A whole output micro-step of `k` blocks and `n` bytes from `s` to `t`, ending in phase `p` (R143 to R146). -/
def OutputStepEffect (c : Config) (k n : Nat) (p : Phase) (s t : State) : Prop :=
  (∀ j : Fin 8, t.scr[j] = if j.val < k then encBlk s.rk (ctrAdd c.ctrIncWidth s.ctr j.val) else s.scr[j]) ∧
  (∀ j i, j < k → i < 16 → 16 * j + i < n →
    t.out.read (s.off.toNat + (16 * j + i)) = some (byteAt (encBlk s.rk (ctrAdd c.ctrIncWidth s.ctr j)) i)) ∧
  (∀ a, a < s.off.toNat ∨ s.off.toNat + n ≤ a → t.out.read a = s.out.read a) ∧
  t.ctr = ctrAdd c.ctrIncWidth s.ctr k ∧
  t.off.toNat = s.off.toNat + n ∧
  t.rem.toNat + n = s.rem.toNat ∧
  t.phase = p ∧
  SameOutsideOutput s t

/-- A run of steps of one kind, `step` or `microStep c`, before each of which the host offers room for as many more
output bytes as the list says; 0 is a host that lets CORE wait (R71). -/
def offeredRun (next : State → Host.Outcome State Fault Refusal) : List Nat → State → Host.Outcome State Fault Refusal
  | [], s => .next s
  | r :: rs, s =>
    match next (hostPaces (.paced r) s) with
    | .next t => offeredRun next rs t
    | .fault e => .fault e
    | .refused e => .refused e

end Sys2Proof.Machine
end

