-- ==== Sys2Proof/Certificates/Slice0/Obligations.lean ====
section
/-! DEFINITION. The statements about vks/aesrng CORE for the provers, in the order of the spec's files: words and state, command
stream and encoding, cipher and counter, SEED, FILL, rekey, faults, reset, and whole-machine rules. -/

open Sys2Proof Sys2Proof.Machine

/-! ### Blocks and reset -/

/-- R13: `val`, `blk`, bits and the byte order. Bit `k` of a block is bit `k mod 8` of byte `k div 8`. -/
def Obligations.BlockIntegerReadingIsLittleEndian : Prop :=
  (∀ b : Block, val b = ((List.range 16).map fun i => (byteAt b i).toNat * 2 ^ (8 * i)).sum) ∧
  (∀ b : Block, val b < 2 ^ 128) ∧
  (∀ b : Block, blk (val b) = b) ∧
  (∀ v : Nat, val (blk v) = v % 2 ^ 128) ∧
  (∀ (b : Block) (k : Nat), k < 128 → b.getLsbD k = (byteAt b (k / 8)).getLsbD (k % 8)) ∧
  (∀ (b : Block) (hi lo : Nat), lo ≤ hi → bitsOf b hi lo = val b / 2 ^ lo % 2 ^ (hi - lo + 1)) ∧
  (∀ (b : Block) (j : Nat), j < 4 → (wordAt b j).toNat = bitsOf b (32 * j + 31) (32 * j))

/-- R43: every register's value after reset, and what the status wires show of it. -/
def Obligations.ResetStateHasTheStatedValues : Prop :=
  (∀ i : Fin 11, State.reset.rk[i] = 0#128) ∧ State.reset.ctr = 0#128 ∧ State.reset.seeded = false ∧
  State.reset.fault = false ∧ State.reset.fcode.bits = 0#2 ∧ State.reset.phase = .idle ∧ State.reset.rem = 0#64 ∧
  State.reset.off = 0#64 ∧ (∀ i : Fin 8, State.reset.scr[i] = 0#128) ∧ State.reset.f = 0#128 ∧
  State.reset.kb = 0#128 ∧ (∀ i : Fin 11, State.reset.nrk[i] = 0#128) ∧ State.reset.seedbuf = 0#256 ∧
  State.reset.status = 0x00#8

/-! ### Command stream and encoding -/

/-- R91: `decode (encode c) = c`, whatever bytes follow. -/
def Obligations.DecodeInvertsEncode : Prop :=
  ∀ (i : Instr) (rest : List Byte), i.WellFormed → decode (encode i ++ rest) = .command i rest

/-- R84, R85, R91: what each answer of the decoder says of the bytes. A command's bytes are its encoding; a first byte
other than `01` and `02` is illegal and alone consumed; a legal one with too few bytes after it is incomplete. -/
def Obligations.DecoderClassifiesEveryByteString : Prop :=
  (∀ bs i rest, decode bs = .command i rest → i.WellFormed ∧ bs = encode i ++ rest) ∧
  (∀ bs op rest, decode bs = .illegal op rest ↔ bs = op :: rest ∧ op ≠ 0x01#8 ∧ op ≠ 0x02#8) ∧
  (∀ bs, decode bs = .incomplete ↔
    bs = [] ∨ (∃ rest, bs = 0x01#8 :: rest ∧ rest.length < 32) ∨ (∃ rest, bs = 0x02#8 :: rest ∧ rest.length < 8))

/-- R81 to R83: command byte `C[k]` is bits `8k+7 .. 8k`, the opcode is the low byte, seed byte `a` is `C[1+a]`, the
length is 64 bits above the opcode; 33 and 9 bytes. The decoder reads them back from a table word. -/
def Obligations.CommandBitsFollowTheTable : Prop :=
  (∀ s : Seed, encodeBits (.seed s) = 0x01 + 2 ^ 8 * s.toNat ∧ (encode (.seed s)).length = 33 ∧
    (∀ a, a < 32 → (encode (.seed s))[1 + a]? = some (s.extractLsb' (8 * a) 8)) ∧
    decodeTableWord 264 (0x01 + 2 ^ 8 * s.toNat) = some (.seed s)) ∧
  (∀ n : Nat, n < 2 ^ 64 → encodeBits (.fill n) = 0x02 + 2 ^ 8 * n ∧ (encode (.fill n)).length = 9 ∧
    decodeTableWord 72 (0x02 + 2 ^ 8 * n) = some (.fill n)) ∧
  (∀ nbits w : Nat, 8 ≤ nbits → w % 2 ^ 8 ≠ 0x01 → w % 2 ^ 8 ≠ 0x02 → decodeTableWord nbits w = none)

/-- R89 and section 2.8 of spec/95: a few commands written out as bytes. A sanity statement. -/
def Obligations.WrittenOutWordsDecode : Prop :=
  decode [0x02#8, 0xc8#8, 0#8, 0#8, 0#8, 0#8, 0#8, 0#8, 0#8] = .command (.fill 200) [] ∧
  decode [0x02#8, 0x01#8, 0x01#8, 0#8, 0#8, 0#8, 0#8, 0#8, 0#8] = .command (.fill 257) [] ∧
  decode (0x01#8 :: (List.range 32).map (BitVec.ofNat 8)) =
    .command (.seed 0x1f1e1d1c1b1a191817161514131211100f0e0d0c0b0a09080706050403020100#256) [] ∧
  decode [0x00#8, 0x01#8] = .illegal 0x00#8 [0x01#8] ∧
  decode [0x02#8, 0x05#8, 0x00#8] = .incomplete

/-- R89, R90: a command's text reads back as the command; `REKEY` is `FILL 0`. The case of the digits written is the
model's choice (log 21). -/
def Obligations.CommandTextReadsBack : Prop :=
  (∀ i : Instr, i.WellFormed → parseCommand (commandText i) = some i) ∧
  parseCommand ['R', 'E', 'K', 'E', 'Y'] = some (.fill 0)

/-- R88: with no command under way, a step runs the command that the latch and the presented bytes spell, its bytes
consumed and nothing else changed. -/
def Obligations.StepRunsTheDecodedCommand : Prop :=
  ∀ (s : State) (i : Instr) (rest : List Byte), s.rst = false → s.phase = .idle → s.fault = false →
    decode (s.latch ++ s.cmd) = .command i rest → step s = exec i { s with latch := [], cmd := rest }

/-- R88 step 3, R91: an incomplete command is collected; no register but the latch changes and `BUSY` stays 0. How its
bytes are split in arriving makes no difference. That one step takes all of them is the model's choice (log 18). -/
def Obligations.IncompleteCommandIsCollected : Prop :=
  (∀ s : State, s.rst = false → s.phase = .idle → s.fault = false → decode (s.latch ++ s.cmd) = .incomplete →
    step s = .next { s with latch := s.latch ++ s.cmd, cmd := [] } ∧
    ({ s with latch := s.latch ++ s.cmd, cmd := [] } : State).busy = false) ∧
  (∀ (s t : State) (bs more : List Byte), s.rst = false → s.phase = .idle → s.fault = false → s.cmd = bs →
    decode (s.latch ++ bs) = .incomplete → step s = .next t →
    step (hostPresents more t) = step (hostPresents more s))

/-- R50, R65, R88: while a command is under way no byte of `cmd` is consumed. -/
def Obligations.BusyCoreConsumesNoCommandByte : Prop :=
  ∀ s t : State, s.rst = false → s.phase ≠ .idle → step s = .next t → t.cmd = s.cmd ∧ t.latch = s.latch

/-! ### Cipher, key schedule, counter -/

/-- R102: every entry of the table is what the definition gives: for `0`, the affine image of 0; for any other byte,
that of its inverse in the field of R101. -/
def Obligations.SboxTableMatchesItsDefinition : Prop :=
  sbox 0#8 = sboxAffine 0#8 ∧ ∀ a : Byte, a ≠ 0#8 → ∃ b : Byte, gmul a b = 1#8 ∧ sbox a = sboxAffine b

/-- R103, R105: `SUBBYTES` and `SHIFTROWS` byte by byte, with the spec's examples. -/
def Obligations.SubBytesAndShiftRowsByteByByte : Prop :=
  (∀ (s : Block) (i : Nat), i < 16 → byteAt (subBytes s) i = sbox (byteAt s i)) ∧
  subBytes (ofBytes fun _ => 0x10#8) = (ofBytes fun _ => 0xca#8) ∧
  (∀ (s : Block) (r c : Nat), r < 4 → c < 4 → byteAt (shiftRows s) (r + 4 * c) = byteAt s (r + 4 * ((c + r) % 4))) ∧
  (∀ (s : Block) (c : Nat), c < 4 → byteAt (shiftRows s) (4 * c) = byteAt s (4 * c)) ∧
  (∀ (s : Block) (i : Fin 16), byteAt (shiftRows s) i.val =
    byteAt s (#v[0, 5, 10, 15, 4, 9, 14, 3, 8, 13, 2, 7, 12, 1, 6, 11][i])) ∧
  shiftRows (ofHex 0x000102030405060708090a0b0c0d0e0f) = ofHex 0x00050a0f04090e03080d02070c01060b

/-- R106, R107: what `ROUND` and `LASTROUND` are made of, that `SUBBYTES` and `SHIFTROWS` commute, and the spec's
examples. -/
def Obligations.RoundAndLastRoundComposition : Prop :=
  (∀ s k : Block, cipherRound s k = mixColumns (subBytes (shiftRows s)) ^^^ k) ∧
  (∀ s : Block, subBytes (shiftRows s) = shiftRows (subBytes s)) ∧
  (∀ s k : Block, cipherRound s k = mixColumns (shiftRows (subBytes s)) ^^^ k) ∧
  cipherRound 0#128 0#128 = (ofBytes fun _ => 0x63#8) ∧
  cipherRound (ofHex 0x00102030405060708090a0b0c0d0e0f0) (ofHex 0xd6aa74fdd2af72fadaa678f1d6ab76fe) =
    ofHex 0x89d810e8855ace682d1843d8cb128fe4 ∧
  (∀ s k : Block, lastRound s k = subBytes (shiftRows s) ^^^ k) ∧
  (∀ (s k : Block) (r c : Nat), r < 4 → c < 4 → byteAt (lastRound s k) (r + 4 * c) =
    sbox (byteAt s (r + 4 * ((c + r) % 4))) ^^^ byteAt k (r + 4 * c)) ∧
  lastRound (ofHex 0xbd6e7c3df2b5779e0b61216e8b10b689) (ofHex 0x13111d7fe3944a17f307a78b4d2b30c5) =
    ofHex 0x69c4e0d86a7b0430d8cdb78070b4c55a

/-- R109: each column mixes on its own, by the four formulas; a column of four equal bytes maps to itself, and so do
sixteen equal bytes; and the spec's example column. -/
def Obligations.MixColumnsColumnByColumn : Prop :=
  (∀ (s : Block) (c : Nat), c < 4 →
    let a0 := byteAt s (4 * c)
    let a1 := byteAt s (4 * c + 1)
    let a2 := byteAt s (4 * c + 2)
    let a3 := byteAt s (4 * c + 3)
    byteAt (mixColumns s) (4 * c) = mul2 a0 ^^^ mul3 a1 ^^^ a2 ^^^ a3 ∧
    byteAt (mixColumns s) (4 * c + 1) = a0 ^^^ mul2 a1 ^^^ mul3 a2 ^^^ a3 ∧
    byteAt (mixColumns s) (4 * c + 2) = a0 ^^^ a1 ^^^ mul2 a2 ^^^ mul3 a3 ∧
    byteAt (mixColumns s) (4 * c + 3) = mul3 a0 ^^^ a1 ^^^ a2 ^^^ mul2 a3) ∧
  (∀ (s : Block) (c : Nat) (b : Byte), c < 4 → (∀ i, i < 4 → byteAt s (4 * c + i) = b) →
    ∀ i, i < 4 → byteAt (mixColumns s) (4 * c + i) = b) ∧
  (∀ b : Byte, mixColumns (ofBytes fun _ => b) = ofBytes fun _ => b) ∧
  mixColumns (ofHex 0xdb135345db135345db135345db135345) = ofHex 0x8e4da1bc8e4da1bc8e4da1bc8e4da1bc

/-- R121, R123: the round constants, in order, with the spec's derived law; and the recursion of `EXPAND`. -/
def Obligations.ExpandFollowsTheRoundConstants : Prop :=
  ((List.range 10).map fun i => roundConstant (i + 1)) = [1#8, 2#8, 4#8, 8#8, 16#8, 32#8, 64#8, 128#8, 27#8, 54#8] ∧
  (∀ i, 1 ≤ i → i < 10 → roundConstant (i + 1) = xtime (roundConstant i)) ∧
  (∀ key : Block, keyAt (expand key) 0 = key) ∧
  (∀ (key : Block) (i : Nat), 1 ≤ i → i ≤ 10 →
    keyAt (expand key) i = ksRound (keyAt (expand key) (i - 1)) (roundConstant i))

/-- R108, R110 to R112: the key-schedule primitives by word, byte and number, with the spec's examples. -/
def Obligations.KeySchedulePrimitivesByWordAndByte : Prop :=
  (∀ (w : Word32) (i : Nat), i < 4 → wordByte (subWord w) i = sbox (wordByte w i)) ∧
  (∀ (w : Word32) (i : Nat), i < 4 → wordByte (rotWord w) i = wordByte w ((i + 1) % 4)) ∧
  (∀ w : Word32, rotWord w = w.rotateRight 8) ∧
  (∀ w : Word32, subWord (rotWord w) = rotWord (subWord w)) ∧
  (∀ rc : Byte, wordByte (rcWord rc) 0 = rc ∧ wordByte (rcWord rc) 1 = 0#8 ∧ wordByte (rcWord rc) 2 = 0#8 ∧
    wordByte (rcWord rc) 3 = 0#8) ∧
  (∀ (x : Block) (rc : Byte),
    wordAt (ksAssist x rc) 0 = subWord (wordAt x 1) ∧
    wordAt (ksAssist x rc) 1 = rotWord (subWord (wordAt x 1)) ^^^ rcWord rc ∧
    wordAt (ksAssist x rc) 2 = subWord (wordAt x 3) ∧
    wordAt (ksAssist x rc) 3 = rotWord (subWord (wordAt x 3)) ^^^ rcWord rc) ∧
  ksAssist (ofHex 0x000102030405060708090a0b0c0d0e0f) 1#8 = ofHex 0xf26b6fc56a6fc5f2fed7ab76d6ab76fe ∧
  ksAssist (ofHex 0x00112233445566778899aabbccddeeff) 54#8 = ofHex 0x1bfc33f5ca33f51b4bc12816f728164b ∧
  ksAssist (ofHex 0x00112233445566778899aabbccddeeff) 0#8 = ofHex 0x1bfc33f5fc33f51b4bc12816c128164b ∧
  (∀ (y : Block) (j : Nat), j < 4 → wordAt (bcast3 y) j = wordAt y 3) ∧
  (∀ (y : Block) (i : Nat), i < 16 → byteAt (bcast3 y) i = byteAt y (12 + i % 4)) ∧
  bcast3 (ofHex 0x00112233445566778899aabbccddeeff) = ofHex 0xccddeeffccddeeffccddeeffccddeeff ∧
  (∀ k : Block, wordAt (shl32 k) 0 = 0#32) ∧
  (∀ (k : Block) (j : Nat), 1 ≤ j → j < 4 → wordAt (shl32 k) j = wordAt k (j - 1)) ∧
  (∀ (k : Block) (i : Nat), i < 16 → byteAt (shl32 k) i = if i < 4 then 0#8 else byteAt k (i - 4)) ∧
  (∀ k : Block, val (shl32 k) = val k * 2 ^ 32 % 2 ^ 128) ∧
  shl32 (ofHex 0x00112233445566778899aabbccddeeff) = ofHex 0x0000000000112233445566778899aabb

/-- R122, R124: `KSROUND` as three shift-and-XOR steps, their values word by word, and the closed form: the word
recurrence of the standard schedule. -/
def Obligations.KeyScheduleRoundIsTheWordRecurrence : Prop :=
  ∀ (p : Block) (rc : Byte),
    let k1 := p ^^^ shl32 p
    let k2 := k1 ^^^ shl32 k1
    let k3 := k2 ^^^ shl32 k2
    let n := ksRound p rc
    let p0 := wordAt p 0
    let p1 := wordAt p 1
    let p2 := wordAt p 2
    let p3 := wordAt p 3
    let t := rotWord (subWord p3) ^^^ rcWord rc
    n = k3 ^^^ bcast3 (ksAssist p rc) ∧
    wordAt k1 0 = p0 ∧ wordAt k1 1 = p0 ^^^ p1 ∧ wordAt k1 2 = p1 ^^^ p2 ∧ wordAt k1 3 = p2 ^^^ p3 ∧
    wordAt k2 0 = p0 ∧ wordAt k2 1 = p1 ∧ wordAt k2 2 = p0 ^^^ p2 ∧ wordAt k2 3 = p1 ^^^ p3 ∧
    wordAt k3 0 = p0 ∧ wordAt k3 1 = p0 ^^^ p1 ∧ wordAt k3 2 = p0 ^^^ p1 ^^^ p2 ∧
    wordAt k3 3 = p0 ^^^ p1 ^^^ p2 ^^^ p3 ∧
    wordAt n 0 = p0 ^^^ t ∧ wordAt n 1 = p1 ^^^ wordAt n 0 ∧ wordAt n 2 = p2 ^^^ wordAt n 1 ∧
    wordAt n 3 = p3 ^^^ wordAt n 2

/-- R130: `ENCBLK`, for every schedule and block: whiten with round key 0, nine full rounds with round keys 1 to 9 in
order, the last round with round key 10. First with the entries of the schedule by name, then as a recursion. -/
def Obligations.EncryptBlockIsWhiteningNineRoundsAndLastRound : Prop :=
  (∀ (rk : Schedule) (b : Block), encBlk rk b =
    let s0 := b ^^^ rk[0]
    let s1 := cipherRound s0 rk[1]
    let s2 := cipherRound s1 rk[2]
    let s3 := cipherRound s2 rk[3]
    let s4 := cipherRound s3 rk[4]
    let s5 := cipherRound s4 rk[5]
    let s6 := cipherRound s5 rk[6]
    let s7 := cipherRound s6 rk[7]
    let s8 := cipherRound s7 rk[8]
    let s9 := cipherRound s8 rk[9]
    lastRound s9 rk[10]) ∧
  (∀ (rk : Schedule) (b : Block), ∃ s : Nat → Block, s 0 = b ^^^ keyAt rk 0 ∧
    (∀ i, 1 ≤ i → i ≤ 9 → s i = cipherRound (s (i - 1)) (keyAt rk i)) ∧ encBlk rk b = lastRound (s 9) (keyAt rk 10))

/-- R125, R132, section 2.3 of spec/95: published values of `EXPAND` and `ENCBLK`. A sanity statement. -/
def Obligations.PublishedCipherValues : Prop :=
  keyAt (expand (ofHex 0x000102030405060708090a0b0c0d0e0f)) 10 = ofHex 0x13111d7fe3944a17f307a78b4d2b30c5 ∧
  encBlk (expand (ofHex 0x000102030405060708090a0b0c0d0e0f)) (ofHex 0x00112233445566778899aabbccddeeff) =
    ofHex 0x69c4e0d86a7b0430d8cdb78070b4c55a ∧
  encBlk (expand (ofHex 0x000102030405060708090a0b0c0d0e0f)) (ofHex 0x101112131415161718191a1b1c1d1e1f) =
    ofHex 0x07feef74e1d5036e900eee118e949293 ∧
  encBlk (expand 0#128) 0#128 = ofHex 0x66e94bd4ef8a2c3b884cfa59ca342b2e

/-- R133, R134: the counter adder of both widths. Addition modulo `2^128`, or modulo `2^64` on the low half alone; adding
0 changes nothing and additions compose; the widths differ only where the low half overflows; the spec's corner cases. -/
def Obligations.CounterAdderLaws : Prop :=
  (∀ (c : Block) (k : Nat), ctrAdd .w128 c k = blk ((val c + k) % 2 ^ 128)) ∧
  (∀ (c : Block) (k : Nat), ctrAdd .w64 c k = blk (val c / 2 ^ 64 * 2 ^ 64 + (val c % 2 ^ 64 + k) % 2 ^ 64)) ∧
  (∀ (c : Block) (k : Nat), val (ctrAdd .w64 c k) / 2 ^ 64 = val c / 2 ^ 64) ∧
  (∀ (w : AdderWidth) (c : Block), ctrAdd w c 0 = c) ∧
  (∀ (w : AdderWidth) (c : Block) (j k : Nat), ctrAdd w (ctrAdd w c j) k = ctrAdd w c (j + k)) ∧
  (∀ (c : Block) (k : Nat), val c % 2 ^ 64 + k < 2 ^ 64 → ctrAdd .w64 c k = ctrAdd .w128 c k) ∧
  ctrAdd .w128 (ofHex 0x101112131415161718191a1b1c1d1e1f) 13 = ofHex 0x1d1112131415161718191a1b1c1d1e1f ∧
  ctrAdd .w128 (ofHex 0xff000000000000000000000000000000) 1 = ofHex 0x00010000000000000000000000000000 ∧
  ctrAdd .w128 (ofHex 0xffffffffffffffff0000000000000000) 1 = ofHex 0x00000000000000000100000000000000 ∧
  ctrAdd .w128 (ofHex 0xffffffffffffffffffffffffffffffff) 1 = 0#128 ∧
  ctrAdd .w64 (ofHex 0xffffffffffffffff0000000000000000) 1 = 0#128 ∧
  ctrAdd .w64 (ofHex 0xffffffffffffffffffffffffffffffff) 1 = ofHex 0x0000000000000000ffffffffffffffff

/-- R160: the flip is the XOR with the constant `2^127`; it inverts bit 7 of byte 15 and nothing else; flipping twice
gives the counter back; phase `RKENC` writes the flipped counter to `F` and leaves `CTR`; the spec's example. -/
def Obligations.FlipInvertsTheTopBitAlone : Prop :=
  val flipBlock = 2 ^ 127 ∧ flipBlock = ofHex 0x00000000000000000000000000000080 ∧
  (∀ c : Block, byteAt (c ^^^ flipBlock) 15 = byteAt c 15 ^^^ 0x80#8) ∧
  (∀ (c : Block) (i : Nat), i < 15 → byteAt (c ^^^ flipBlock) i = byteAt c i) ∧
  (∀ c : Block, (c ^^^ flipBlock) ^^^ flipBlock = c) ∧
  (∀ (c : Config) (s : State), s.phase = .rkenc → s.rem = 0#64 →
    ∃ t, microStep c s = .next t ∧ t.f = s.ctr ^^^ flipBlock ∧ t.ctr = s.ctr) ∧
  ofHex 0x1d1112131415161718191a1b1c1d1e1f ^^^ flipBlock = ofHex 0x1d1112131415161718191a1b1c1d1e9f

/-- R167: under both adder widths the input of the key-block encryption is no counter value of an output block of the
same FILL, for every length the encoding has. -/
def Obligations.KeyBlockInputIsNoOutputCounter : Prop :=
  ∀ (w : AdderWidth) (c : Block) (n j : Nat), n < 2 ^ 64 → j < blockCount n →
    ctrAdd w c (blockCount n) ^^^ flipBlock ≠ ctrAdd w c j

/-! ### SEED -/

/-- R171: the split of the seed, byte for byte, and the integer reading of its counter half. -/
def Obligations.SeedSplitsByteForByte : Prop :=
  (∀ (s : Seed) (i : Nat), i < 16 → byteAt (seedKey s) i = seedByte s i) ∧
  (∀ (s : Seed) (i : Nat), i < 16 → byteAt (seedCounter s) i = seedByte s (16 + i)) ∧
  (∀ s : Seed, val (seedCounter s) = ((List.range 16).map fun i => (seedByte s (16 + i)).toNat * 2 ^ (8 * i)).sum)

/-- R170, R172: SEED, for every seed. On a ready CORE and for a prompt host it completes as one command step: schedule,
counter and flag are new, `RK[0]` is the seed's first half, the ephemeral registers are zero, nothing else changes. For a
pacing host it is accepted, and its two micro-steps follow. A CORE that is not ready lets it wait. That `OFF` ends at 0 is
read from R173 (log 6), that `SCR`, `F` and `KB` are cleared too from R38 (log 16); R170 names none of them. -/
def Obligations.SeedCommandLoadsScheduleCounterAndFlag : Prop :=
  (∀ (x : Seed) (s : State), s.phase = .idle → s.fault = false → s.pace = .prompt →
    exec (.seed x) s = .next
      { s with
        rk := expand (seedKey x), ctr := seedCounter x, seeded := true, off := 0#64,
        scr := Vector.replicate 8 0#128, f := 0#128, kb := 0#128, nrk := Vector.replicate 11 0#128,
        seedbuf := 0#256 }) ∧
  (∀ x : Seed, keyAt (expand (seedKey x)) 0 = blockOfBytes (memReadSeed x 0 16) ∧
    seedCounter x = blockOfBytes (memReadSeed x 16 16)) ∧
  (∀ (x : Seed) (s : State) (r : Nat), s.phase = .idle → s.fault = false → s.pace = .paced r →
    exec (.seed x) s = .next { s with seedbuf := x, phase := .sdexp }) ∧
  (∀ (c : Config) (s : State), s.phase = .sdexp →
    microStep c s = .next { s with nrk := expand (seedKey s.seedbuf), phase := .sdcommit }) ∧
  (∀ (c : Config) (s : State), s.phase = .sdcommit →
    microStep c s = .next { s with
      rk := s.nrk, ctr := seedCounter s.seedbuf, seeded := true, off := 0#64, phase := .idle,
      scr := Vector.replicate 8 0#128, f := 0#128, kb := 0#128, nrk := Vector.replicate 11 0#128,
      seedbuf := 0#256 }) ∧
  (∀ (x : Seed) (s : State), s.phase ≠ .idle ∨ s.fault = true → exec (.seed x) s = .next s)

/-- The frame of SEED, for a prompt host and for a pacing one: no byte of the output space changes, nor do the flags
but `SEEDED`, `REM` and the ports. `OFF` is 0 once the command step has run and otherwise unchanged: the model's reading
of R173 (log 6). -/
def Obligations.SeedLeavesOutputAndTheRestAlone : Prop :=
  ∀ (x : Seed) (s t : State), exec (.seed x) s = .next t →
    (∀ a, t.out.read a = s.out.read a) ∧ t.out.len = s.out.len ∧ t.rem = s.rem ∧
    t.off = (if s.phase = .idle ∧ s.fault = false ∧ s.pace = .prompt then 0#64 else s.off) ∧ t.fault = s.fault ∧
    t.fcode = s.fcode ∧ t.rst = s.rst ∧ t.cmd = s.cmd ∧ t.latch = s.latch ∧ t.pace = s.pace ∧ t.sent = s.sent ∧
    (t.seeded = s.seeded ∨ t.seeded = true)

/-- R173, R174: after a SEED schedule and counter are a function of the seed alone, whatever stood before, and the
schedule's entry 0 is the seed's first half. From states that meet the invariant, every register of R43 is: seeded or
not, and whatever lengths went before. For `OFF` that is the model's reading of R173 (log 6). -/
def Obligations.SeedForgetsWhatStoodBefore : Prop :=
  (∀ (x : Seed) (s t : State), s.phase = .idle → s.fault = false → s.pace = .prompt →
    t.phase = .idle → t.fault = false → t.pace = .prompt →
    ∃ s' t', exec (.seed x) s = .next s' ∧ exec (.seed x) t = .next t' ∧ s'.rk = t'.rk ∧ s'.ctr = t'.ctr ∧
      s'.seeded = true ∧ t'.seeded = true ∧ (∀ i, i < 16 → byteAt (keyAt s'.rk 0) i = seedByte x i)) ∧
  (∀ (x : Seed) (s t : State), s.Inv Config.core → t.Inv Config.core → s.phase = .idle → t.phase = .idle →
    s.pace = .prompt → t.pace = .prompt →
    ∃ s' t', exec (.seed x) s = .next s' ∧ exec (.seed x) t = .next t' ∧
      s'.rk = t'.rk ∧ s'.ctr = t'.ctr ∧ s'.seeded = t'.seeded ∧ s'.fault = t'.fault ∧ s'.fcode = t'.fcode ∧
      s'.phase = t'.phase ∧ s'.rem = t'.rem ∧ s'.off = t'.off ∧ s'.scr = t'.scr ∧ s'.f = t'.f ∧ s'.kb = t'.kb ∧
      s'.nrk = t'.nrk ∧ s'.seedbuf = t'.seedbuf ∧ s'.status = 0x01#8)

/-- R170, R152 for SEED: acceptance and the two micro-steps give just the command step; between them `BUSY` is 1 and
neither `RK`, `CTR` nor `SEEDED` has changed. -/
def Obligations.SeedMicroStepsComposeToTheCommand : Prop :=
  ∀ (c : Config) (x : Seed) (s : State), s.phase = .idle →
    microRun c 2 (acceptSeed x s) = .next (seedCommand x s) ∧
    ∃ t, microStep c (acceptSeed x s) = .next t ∧ t.phase = .sdcommit ∧ t.busy = true ∧
      t.rk = s.rk ∧ t.ctr = s.ctr ∧ t.seeded = s.seeded ∧ (acceptSeed x s).busy = true

/-! ### FILL -/


/-- R140, R147, R166 as one command step: a seeded, ready CORE completes FILL for every natural length. Byte `16j+i` of
the output is byte `i` of the `j`-th output block under the old schedule, there is no byte beyond the length, the counter
advances by the number of blocks, and the new schedule expands the encryption of the flipped new counter. A CORE that is
not ready lets FILL wait; an unseeded one takes the fault. Last, the spec's worked example. -/
def Obligations.FillCommandOutputCounterAndSchedule : Prop :=
  (∀ (n : Nat) (s : State), s.phase = .idle → s.fault = false → s.seeded = true → s.pace = .prompt →
    ∃ t, exec (.fill n) s = .next t ∧ t.out.len = n ∧
      (∀ j i, i < 16 → 16 * j + i < n →
        t.out.read (16 * j + i) = some (byteAt (encBlk s.rk (ctrAdd .w128 s.ctr j)) i)) ∧
      (∀ a, n ≤ a → t.out.read a = none) ∧
      t.ctr = ctrAdd .w128 s.ctr ((n + 15) / 16) ∧
      t.rk = expand (encBlk s.rk (ctrAdd .w128 s.ctr ((n + 15) / 16) ^^^ blk (2 ^ 127)))) ∧
  (∀ (n : Nat) (s : State), s.phase ≠ .idle ∨ s.fault = true → exec (.fill n) s = .next s) ∧
  (∀ (n : Nat) (s : State), s.phase = .idle → s.fault = false → s.seeded = false →
    exec (.fill n) s = .next (raiseFault .notSeeded s)) ∧
  (∀ s : State, s.phase = .idle → s.fault = false → s.seeded = true → s.pace = .prompt →
    s.rk = expand (ofHex 0x000102030405060708090a0b0c0d0e0f) → s.ctr = ofHex 0x101112131415161718191a1b1c1d1e1f →
    ∃ t, exec (.fill 5) s = .next t ∧
      t.out.read 0 = some 0x07#8 ∧ t.out.read 1 = some 0xfe#8 ∧ t.out.read 2 = some 0xef#8 ∧
      t.out.read 3 = some 0x74#8 ∧ t.out.read 4 = some 0xe1#8 ∧
      t.ctr = ofHex 0x111112131415161718191a1b1c1d1e1f ∧
      keyAt t.rk 0 = ofHex 0x0c47884cfa9f682286e80f3b36c30c1b)

/-- The frame of a completed FILL: flags and ports unchanged, ephemeral registers zero (`SEEDBUF` too: log 16), `REM` 0
(R38, R141). That `OFF` ends at the length is read from the micro-steps (log 6). -/
def Obligations.FillFrame : Prop :=
  ∀ (n : Nat) (s : State), s.phase = .idle → s.fault = false → s.seeded = true → s.pace = .prompt →
    ∃ t, exec (.fill n) s = .next t ∧ t.seeded = s.seeded ∧ t.fault = s.fault ∧ t.fcode = s.fcode ∧
      t.phase = s.phase ∧ t.rst = s.rst ∧ t.cmd = s.cmd ∧ t.latch = s.latch ∧ t.pace = s.pace ∧
      t.Erased ∧ t.rem = 0#64 ∧ t.sent = 0 ∧ t.off = BitVec.ofNat 64 n

/-- R156: the bytes of `FILL n` are the first `n` bytes of a longer FILL from the same state, and the two end alike when
they encrypt the same number of blocks: with the same schedule and counter, and in every other register but `OFF`, which
each leaves at its own length. That R156's equality does not take in `OFF` is the model's choice (log 24). -/
def Obligations.FillIsAPrefixOfLongerFill : Prop :=
  ∀ (c : Config) (s : State) (n m : Nat), n ≤ m →
    (∀ a, a < n → (fillCommand c n s).out.read a = (fillCommand c m s).out.read a ∧
      (fillCommand c n s).out.read a ≠ none) ∧
    (blockCount n = blockCount m →
      (fillCommand c n s).rk = (fillCommand c m s).rk ∧ (fillCommand c n s).ctr = (fillCommand c m s).ctr ∧
      ∀ (o : Len) (space : OutSpace), { fillCommand c n s with off := o, out := space } =
        { fillCommand c m s with off := o, out := space })

/-- R88 step 5, R142: for a pacing host FILL is accepted: `REM` takes the length, `OFF` is 0, the phase is `select` of the
length, whose thresholds are all strict; `BUSY` rises; neither `RK`, `CTR` nor any flag has changed, and no byte is
written yet. -/
def Obligations.AcceptanceStartsTheFill : Prop :=
  (∀ (n : Nat) (s : State) (r : Nat), n < 2 ^ 64 → s.phase = .idle → s.fault = false → s.seeded = true →
    s.pace = .paced r →
    ∃ t, exec (.fill n) s = .next t ∧ t.rem.toNat = n ∧ t.off = 0#64 ∧ t.phase = select Config.core n ∧
      t.busy = true ∧ t.out.len = n ∧ (∀ a, t.out.read a = none) ∧ t.sent = 0 ∧
      SameOutsideOutput { s with out := t.out } t ∧ t.ctr = s.ctr ∧ t.scr = s.scr ∧ t.pace = s.pace) ∧
  (∀ r : Nat,
    (select Config.core r = .f8 ↔ 128 < r) ∧ (select Config.core r = .f2 ↔ 32 < r ∧ r ≤ 128) ∧
    (select Config.core r = .f1 ↔ 16 < r ∧ r ≤ 32) ∧ (select Config.core r = .tail ↔ 0 < r ∧ r ≤ 16) ∧
    (select Config.core r = .rkenc ↔ r = 0))

/-- R143: the micro-step of phase `F8`, when the host takes its 128 bytes. -/
def Obligations.EightLaneStep : Prop :=
  ∀ s : State, s.phase = .f8 → 128 < s.rem.toNat → s.sent = 0 → s.off.toNat + s.rem.toNat = s.out.len →
    s.out.len < 2 ^ 64 → s.pace.takes 128 = 128 →
    ∃ t, microStep Config.core s = .next t ∧
      OutputStepEffect Config.core 8 128 (select Config.core (s.rem.toNat - 128)) s t ∧ 1 ≤ t.rem.toNat

/-- R144: the micro-step of phase `F2`. -/
def Obligations.TwoLaneStep : Prop :=
  ∀ s : State, s.phase = .f2 → 32 < s.rem.toNat → s.rem.toNat ≤ 128 → s.sent = 0 →
    s.off.toNat + s.rem.toNat = s.out.len → s.out.len < 2 ^ 64 → s.pace.takes 32 = 32 →
    ∃ t, microStep Config.core s = .next t ∧
      OutputStepEffect Config.core 2 32 (select Config.core (s.rem.toNat - 32)) s t ∧ 1 ≤ t.rem.toNat

/-- R145: the micro-step of phase `F1`; the next phase is always `TAIL`. -/
def Obligations.OneLaneStep : Prop :=
  ∀ s : State, s.phase = .f1 → 16 < s.rem.toNat → s.rem.toNat ≤ 32 → s.sent = 0 →
    s.off.toNat + s.rem.toNat = s.out.len → s.out.len < 2 ^ 64 → s.pace.takes 16 = 16 →
    ∃ t, microStep Config.core s = .next t ∧ OutputStepEffect Config.core 1 16 .tail s t ∧
      1 ≤ t.rem.toNat ∧ t.rem.toNat ≤ 16

/-- R146: the tail writes the first `REM` bytes of one more block, and then the rekey begins. -/
def Obligations.TailStep : Prop :=
  ∀ s : State, s.phase = .tail → 0 < s.rem.toNat → s.rem.toNat ≤ 16 → s.sent = 0 →
    s.off.toNat + s.rem.toNat = s.out.len → s.out.len < 2 ^ 64 → s.pace.takes s.rem.toNat = s.rem.toNat →
    ∃ t, microStep Config.core s = .next t ∧ OutputStepEffect Config.core 1 s.rem.toNat .rkenc s t ∧
      t.rem = 0#64 ∧ t.t = encBlk s.rk s.ctr

/-- R71, R80, R66: a host that takes nothing makes an output phase wait with nothing changed. One that takes `k` bytes,
at whatever byte the micro-step stands, is given `out_data` first, and those `k` bytes are stored at the next offsets and
nowhere else. If bytes of the micro-step remain then, no register is written; if not, the registers are written, all
of them, just as if the host had never let CORE wait (R143 to R146). How many bytes one step moves is the model's choice
(log 4, log 18). -/
def Obligations.BackPressureOnlyDelays : Prop :=
  (∀ (c : Config) (s : State), s.Inv c → s.phase.isOutput = true → s.pace = .paced 0 → microStep c s = .next s) ∧
  (∀ (c : Config) (s : State), s.Inv c → s.phase.isOutput = true → s.pace ≠ .paced 0 →
    let k := s.pace.takes (s.outputCount - s.sent)
    0 < k ∧ s.outValid = true ∧ ∃ t b, microStep c s = .next t ∧ s.outData c = some b ∧
      t.out.read (s.off.toNat + s.sent) = some b ∧
      (∀ j i, i < 16 → s.sent ≤ 16 * j + i → 16 * j + i < s.sent + k →
        t.out.read (s.off.toNat + (16 * j + i)) = some (byteAt (encBlk s.rk (ctrAdd c.ctrIncWidth s.ctr j)) i)) ∧
      (∀ a, a < s.off.toNat + s.sent ∨ s.off.toNat + s.sent + k ≤ a → t.out.read a = s.out.read a) ∧
      t.pace = s.pace.after k ∧ SameOutsideOutput s t ∧
      (s.sent + k < s.outputCount →
        t.ctr = s.ctr ∧ t.rem = s.rem ∧ t.off = s.off ∧ t.scr = s.scr ∧ t.phase = s.phase ∧ t.sent = s.sent + k) ∧
      (s.sent + k = s.outputCount →
        (∀ j : Fin 8, t.scr[j] =
          if j.val < outputBlocks s.phase then encBlk s.rk (ctrAdd c.ctrIncWidth s.ctr j.val) else s.scr[j]) ∧
        t.ctr = ctrAdd c.ctrIncWidth s.ctr (outputBlocks s.phase) ∧ t.off.toNat = s.off.toNat + s.outputCount ∧
        t.rem.toNat + s.outputCount = s.rem.toNat ∧ t.phase = select c t.rem.toNat ∧ t.sent = 0)) ∧
  (∀ s : State,
    (s.phase = .f8 → outputBlocks s.phase = 8 ∧ s.outputCount = 128) ∧
    (s.phase = .f2 → outputBlocks s.phase = 2 ∧ s.outputCount = 32) ∧
    (s.phase = .f1 → outputBlocks s.phase = 1 ∧ s.outputCount = 16) ∧
    (s.phase = .tail → outputBlocks s.phase = 1 ∧ s.outputCount = s.rem.toNat))

/-- R148: no output micro-step writes `RK`, whatever its outcome's other fields. -/
def Obligations.OutputPhasesKeepTheSchedule : Prop :=
  ∀ (c : Config) (s t : State), s.phase.isOutput = true → microStep c s = .next t → SameOutsideOutput s t

/-- R160 to R164: the three micro-steps of the rekey. `CTR` is never written and all eleven round keys change at once,
to those of the shadow schedule, whose entry 0 is the key block; the erasure, of `T` too, is in the same step. That the
erasure takes in `SEEDBUF`, which a FILL does not use and R164 does not name, is read from R38 (log 16). -/
def Obligations.RekeyMicroSteps : Prop :=
  (∀ (c : Config) (s : State), s.phase = .rkenc → s.rem = 0#64 →
    microStep c s = .next { s with
      f := s.ctr ^^^ blk (2 ^ 127), kb := encBlk s.rk (s.ctr ^^^ blk (2 ^ 127)), phase := .rkexp }) ∧
  (∀ (c : Config) (s : State), s.phase = .rkexp →
    microStep c s = .next { s with nrk := expand s.kb, phase := .swap } ∧ keyAt (expand s.kb) 0 = s.kb) ∧
  (∀ (c : Config) (s : State), s.phase = .swap →
    microStep c s = .next { s with
      rk := s.nrk, phase := .idle, nrk := Vector.replicate 11 0#128, kb := 0#128, f := 0#128,
      scr := Vector.replicate 8 0#128, seedbuf := 0#256 }) ∧
  (∀ (c : Config) (s t : State), s.phase = .swap → microStep c s = .next t → t.t = 0#128)

/-- R152, R150: for every adder width and lane count, the micro-steps of a FILL, run from its acceptance by a host that
takes all its bytes, end in exactly the state of the command step, after at most `ceil(n/16)` output micro-steps and
three more. The command step's `OFF`, which R140 does not name, is the model's reading (log 6). -/
def Obligations.FillMicroStepsComposeToTheCommand : Prop :=
  ∀ (c : Config) (n : Nat) (s : State), n < 2 ^ 64 → s.phase = .idle → s.seeded = true → s.pace.takes n = n →
    ∃ m, m ≤ blockCount n + 3 ∧
      microRun c m (acceptFill c n s) = .next { fillCommand c n s with pace := s.pace.after n }

/-- R17, R152 through the machine's own `step`: a FILL presented to an idle, seeded CORE by a pacing host with room for
all its bytes ends, after finitely many steps, in the state the command step gives a prompt host. The field `pace` is the model's own
(log 4), and the final `OFF` its reading (log 6). -/
def Obligations.PacedFillRunEndsWhereTheCommandStepEnds : Prop :=
  ∀ (n r : Nat) (s : State) (rest : List Byte), n < 2 ^ 64 → n ≤ r → s.rst = false → s.phase = .idle →
    s.fault = false → s.seeded = true → s.latch = [] → s.cmd = encode (.fill n) ++ rest → s.pace = .paced r →
    ∃ m t, m ≤ blockCount n + 4 ∧ exec (.fill n) { s with cmd := rest, pace := .prompt } = .next t ∧
      Host.Core.run Sys2Proof.core m s = .next { t with pace := .paced (r - n) }

/-- R71, R140, R152: a FILL that the host makes wait, and resumes, as often as it likes and at any byte. The host offers
room for so many more bytes before each micro-step, as the list `rs` says, 0 where it lets CORE wait. Whatever the list:
the bytes taken so far are the first bytes of the command step's output; if the FILL is over, its state is the command
step's; and it is over once the host has offered room `n + 3` times. The same through the machine's own `step`, from the
presented command. The field `pace` is the model's own (log 4), and the final `OFF` its reading (log 6). -/
def Obligations.StalledFillEndsWhereTheCommandStepEnds : Prop :=
  (∀ (c : Config) (n : Nat) (s : State) (rs : List Nat), n < 2 ^ 64 → s.phase = .idle → s.seeded = true →
    ∃ t, offeredRun (microStep c) rs (acceptFill c n s) = .next t ∧
      (∃ k, k ≤ n ∧ ∀ a, t.out.read a = if a < k then (fillCommand c n s).out.read a else none) ∧
      (t.phase = .idle → t = { fillCommand c n s with pace := t.pace }) ∧
      (n + 3 ≤ rs.countP (0 < ·) → t.phase = .idle)) ∧
  (∀ (n r : Nat) (s : State) (rs : List Nat), n < 2 ^ 64 → s.rst = false → s.phase = .idle → s.fault = false →
    s.seeded = true → s.latch = [] → s.cmd = encode (.fill n) → n + 3 ≤ rs.countP (0 < ·) →
    ∃ t p, exec (.fill n) { s with cmd := [], pace := .prompt } = .next t ∧
      offeredRun step (r :: rs) s = .next { t with pace := p })

/-- R149: the lane count is unobservable: both sequencers bring the same accepted FILL to the same idle state. -/
def Obligations.LaneCountIsUnobservable : Prop :=
  ∀ (w : AdderWidth) (n : Nat) (s : State), n < 2 ^ 64 → s.phase = .idle → s.seeded = true → s.pace.takes n = n →
    ∃ m k t, t.phase = .idle ∧
      microRun { ctrIncWidth := w, nLanes := .eight } m (acceptFill { ctrIncWidth := w, nLanes := .eight } n s) = .next t ∧
      microRun { ctrIncWidth := w, nLanes := .one } k (acceptFill { ctrIncWidth := w, nLanes := .one } n s) = .next t

/-- R158: output and end state of a FILL depend on `RK`, `CTR` and the length alone: not on the old buffer, nor on
anything else that stood in the machine. -/
def Obligations.FillIsAFunctionOfScheduleCounterAndLength : Prop :=
  ∀ (n : Nat) (s t : State), s.phase = .idle → s.fault = false → s.seeded = true → s.pace = .prompt →
    t.phase = .idle → t.fault = false → t.seeded = true → t.pace = .prompt → s.rk = t.rk → s.ctr = t.ctr →
    ∃ s' t', exec (.fill n) s = .next s' ∧ exec (.fill n) t = .next t' ∧ s'.out = t'.out ∧ s'.rk = t'.rk ∧
      s'.ctr = t'.ctr

/-! ### Status and faults -/

/-- R27, R28: the bits of `STATUS`, and that no other register moves one. -/
def Obligations.StatusBits : Prop :=
  (∀ s : State, s.status.getLsbD 0 = s.seeded ∧
    (s.status.getLsbD 1 = true ↔ s.phase ≠ .idle ∧ s.phase ≠ .halt) ∧
    s.status.getLsbD 2 = s.fault ∧ s.status.extractLsb' 3 2 = s.fcode.bits ∧ s.status.extractLsb' 5 3 = 0#3) ∧
  (∀ s t : State, s.seeded = t.seeded → s.phase = t.phase → s.fault = t.fault → s.fcode = t.fcode →
    s.status = t.status)

/-- R88 step 1, R140, R170: a CORE that is not idle, or has faulted, lets a command wait: nothing changes. -/
def Obligations.CommandWaitsUnlessReady : Prop :=
  ∀ (i : Instr) (s : State), s.phase ≠ .idle ∨ s.fault = true → exec i s = .next s

/-- R182: FILL on an unseeded CORE, all nine bytes consumed, takes the fault `NotSeeded`, code 2: no output, no rekey,
no other register changed. -/
def Obligations.UnseededFillTakesNotSeeded : Prop :=
  (∀ (n : Nat) (s : State), s.phase = .idle → s.fault = false → s.seeded = false →
    exec (.fill n) s = .next { s with fault := true, fcode := .notSeeded, phase := .halt }) ∧
  (∀ (n : Nat) (s : State) (rest : List Byte), s.rst = false → s.phase = .idle → s.fault = false →
    s.seeded = false → decode (s.latch ++ s.cmd) = .command (.fill n) rest →
    step s = .next { s with fault := true, fcode := .notSeeded, phase := .halt, latch := [], cmd := rest }) ∧
  FCode.notSeeded.bits = 2#2

/-- R181, R86, R187: a reserved opcode takes the fault `IllegalCommand`, code 1, when that byte is consumed, seeded or
not; no operand byte is consumed and no other register changes. -/
def Obligations.ReservedOpcodeTakesIllegalCommand : Prop :=
  (∀ (s : State) (op : Byte) (rest : List Byte), s.rst = false → s.phase = .idle → s.fault = false →
    s.latch = [] → s.cmd = op :: rest → op ≠ 0x01#8 → op ≠ 0x02#8 →
    step s = .next { s with fault := true, fcode := .illegalCommand, phase := .halt, cmd := rest }) ∧
  FCode.illegalCommand.bits = 1#2

/-- R184, R185: in `HALT` nothing is consumed and no step is enabled; only reset leaves it, and it erases `RK` and `CTR`
and leaves CORE unseeded. -/
def Obligations.HaltIsLeftByResetAlone : Prop :=
  ∀ s : State, s.phase = .halt →
    s.cmdReady = false ∧ s.busy = false ∧ (s.rst = false → step s = .fault .halted) ∧
    (s.rst = true → ∃ t, step s = .next t ∧ t.phase = .idle ∧ t.fault = false ∧ t.fcode = .none ∧
      t.rk = Vector.replicate 11 0#128 ∧ t.ctr = 0#128 ∧ t.seeded = false)

/-- R26, R183, R184, R187: a step without reset never clears `FAULT` nor changes `FCODE` once set. One that sets `FAULT`
ends in `HALT` with `RK`, `CTR`, `SEEDED` and the output space as they were, and has one of two causes: a
reserved opcode, code `IllegalCommand`, or a complete FILL on an unseeded CORE, code `NotSeeded`. -/
def Obligations.FaultHasTwoCausesAndIsSticky : Prop :=
  ∀ s t : State, s.rst = false → step s = .next t →
    (s.fault = true → t.fault = true ∧ t.fcode = s.fcode) ∧
    (s.fault = false → t.fault = false → t.fcode = s.fcode) ∧
    (s.fault = false → t.fault = true →
      s.phase = .idle ∧ t.phase = .halt ∧ t.rk = s.rk ∧ t.ctr = s.ctr ∧ t.seeded = s.seeded ∧ t.out = s.out ∧
      ((t.fcode = .illegalCommand ∧ ∃ op rest, decode (s.latch ++ s.cmd) = .illegal op rest) ∨
        (t.fcode = .notSeeded ∧ s.seeded = false ∧ ∃ n rest, decode (s.latch ++ s.cmd) = .command (.fill n) rest)))

/-- R25: `SEEDED` is set by SEED's completion, cleared only by reset. -/
def Obligations.SeededIsClearedByResetAlone : Prop :=
  (∀ s t : State, s.rst = false → s.seeded = true → step s = .next t → t.seeded = true) ∧
  (∀ s t : State, s.rst = true → step s = .next t → t.seeded = false) ∧
  (∀ s t : State, s.rst = false → s.seeded = false → step s = .next t → t.seeded = true →
    s.phase = .sdcommit ∨ s.phase = .idle ∧ ∃ x rest, decode (s.latch ++ s.cmd) = .command (.seed x) rest) ∧
  State.reset.seeded = false

/-- R20, R200: `RK` is written by SEED's completion, by the swap that ends a FILL, and by reset; by nothing else. -/
def Obligations.ScheduleIsWrittenBySeedSwapAndResetAlone : Prop :=
  ∀ s t : State, step s = .next t → t.rk ≠ s.rk →
    s.rst = true ∨ s.phase = .swap ∨ s.phase = .sdcommit ∨
    (s.phase = .idle ∧ s.pace = .prompt ∧ ∃ i rest, decode (s.latch ++ s.cmd) = .command i rest)

/-! ### Reset -/

/-- R200, R187: asserted `rst` wins over everything, in any phase: every register takes its reset value and a partly
received command is dropped. That the host's bytes and buffer stay is the model's reading (log 5). -/
def Obligations.ResetWinsInAnyPhase : Prop :=
  ∀ s : State, s.rst = true →
    ∃ t, step s = .next t ∧ t.rk = State.reset.rk ∧ t.ctr = State.reset.ctr ∧ t.seeded = false ∧ t.fault = false ∧
      t.fcode = .none ∧ t.phase = .idle ∧ t.rem = 0#64 ∧ t.off = 0#64 ∧ t.Erased ∧ t.latch = [] ∧ t.sent = 0 ∧
      t.status = 0x00#8 ∧ t.cmd = s.cmd ∧ t.pace = s.pace ∧ t.out = s.out

/-- R203: a FILL cut short by reset leaves some prefix of its output, with the bytes the completed FILL would have
written, and nothing beyond it; how long the prefix is, nothing records. That the
output space outlives the reset step is the model's reading (log 5). -/
def Obligations.ResetDuringFillLeavesACorrectPrefix : Prop :=
  ∀ (c : Config) (n m : Nat) (s t u : State), n < 2 ^ 64 → s.phase = .idle → s.seeded = true →
    microRun c m (acceptFill c n s) = .next t → step (hostResets t) = .next u →
    u.seeded = false ∧ ∃ k, k ≤ n ∧
      ∀ a, u.out.read a = if a < k then (fillCommand c n s).out.read a else none

/-! ### The whole machine -/

/-- The invariant holds after reset. -/
def Obligations.InvariantHoldsAtReset : Prop := State.reset.Inv Config.core

/-- Every step keeps the invariant. -/
def Obligations.StepKeepsTheInvariant : Prop :=
  ∀ s t : State, s.Inv Config.core → step s = .next t → t.Inv Config.core

/-- R154, R180, R183: no state that meets the invariant stops, but for `HALT`; nothing is ever refused. -/
def Obligations.OnlyHaltStops : Prop :=
  ∀ s : State, s.Inv Config.core →
    (∃ t, step s = .next t) ∨ (s.phase = .halt ∧ s.rst = false ∧ step s = .fault .halted)

/-- R28, R191: what the host sees after a step, apart from the output bytes, does not depend on `RK`, `CTR`, the
ephemeral registers or the output bytes so far; the output bytes do depend on `RK` and `CTR` (R23, log 22): states alike in their public part give outcomes alike in theirs. -/
def Obligations.StepRevealsNoSecret : Prop :=
  ∀ s t : State, s.publicView = t.publicView → SamePublic (step s) (step t)

/-- R28, R175: nor on the seed a SEED brings, with the same exception (log 22). -/
def Obligations.SeedValueIsNotRevealed : Prop :=
  ∀ (x y : Seed) (s t : State), s.publicView = t.publicView → SamePublic (exec (.seed x) s) (exec (.seed y) t)

/-- R192: an identification read is the same for states that agree on `STATUS`. CORE has none: the read, and that `STATUS`
is its second part, are the model's own (log 20). -/
def Obligations.IdentificationReadsStatusAlone : Prop :=
  ∀ s t : State, s.status = t.status → s.identify = t.identify ∧ s.identify.2 = s.status
end

