-- ==== Sys2Proof/Laws/State.lean ====
section
/-! SUPPORT. One lemma per field of State per update, so that no proof unfolds a record update. -/

namespace Sys2Proof.Machine

/-! What `erase` does to each register. -/

@[simp] theorem erase_rk (s : State) : s.erase.rk = s.rk := rfl
@[simp] theorem erase_ctr (s : State) : s.erase.ctr = s.ctr := rfl
@[simp] theorem erase_seeded (s : State) : s.erase.seeded = s.seeded := rfl
@[simp] theorem erase_fault (s : State) : s.erase.fault = s.fault := rfl
@[simp] theorem erase_fcode (s : State) : s.erase.fcode = s.fcode := rfl
@[simp] theorem erase_phase (s : State) : s.erase.phase = s.phase := rfl
@[simp] theorem erase_rem (s : State) : s.erase.rem = s.rem := rfl
@[simp] theorem erase_off (s : State) : s.erase.off = s.off := rfl
@[simp] theorem erase_scr (s : State) : s.erase.scr = scratchZero := rfl
@[simp] theorem erase_f (s : State) : s.erase.f = 0#128 := rfl
@[simp] theorem erase_kb (s : State) : s.erase.kb = 0#128 := rfl
@[simp] theorem erase_nrk (s : State) : s.erase.nrk = Schedule.zero := rfl
@[simp] theorem erase_seedbuf (s : State) : s.erase.seedbuf = 0#256 := rfl
@[simp] theorem erase_rst (s : State) : s.erase.rst = s.rst := rfl
@[simp] theorem erase_cmd (s : State) : s.erase.cmd = s.cmd := rfl
@[simp] theorem erase_latch (s : State) : s.erase.latch = s.latch := rfl
@[simp] theorem erase_pace (s : State) : s.erase.pace = s.pace := rfl
@[simp] theorem erase_sent (s : State) : s.erase.sent = s.sent := rfl
@[simp] theorem erase_out (s : State) : s.erase.out = s.out := rfl

/-! What `raiseFault` does to each register. -/

@[simp] theorem raiseFault_rk (code : FCode) (s : State) : (raiseFault code s).rk = s.rk := rfl
@[simp] theorem raiseFault_ctr (code : FCode) (s : State) : (raiseFault code s).ctr = s.ctr := rfl
@[simp] theorem raiseFault_seeded (code : FCode) (s : State) : (raiseFault code s).seeded = s.seeded := rfl
@[simp] theorem raiseFault_fault (code : FCode) (s : State) : (raiseFault code s).fault = true := rfl
@[simp] theorem raiseFault_fcode (code : FCode) (s : State) : (raiseFault code s).fcode = code := rfl
@[simp] theorem raiseFault_phase (code : FCode) (s : State) : (raiseFault code s).phase = .halt := rfl
@[simp] theorem raiseFault_rem (code : FCode) (s : State) : (raiseFault code s).rem = s.rem := rfl
@[simp] theorem raiseFault_off (code : FCode) (s : State) : (raiseFault code s).off = s.off := rfl
@[simp] theorem raiseFault_scr (code : FCode) (s : State) : (raiseFault code s).scr = s.scr := rfl
@[simp] theorem raiseFault_f (code : FCode) (s : State) : (raiseFault code s).f = s.f := rfl
@[simp] theorem raiseFault_kb (code : FCode) (s : State) : (raiseFault code s).kb = s.kb := rfl
@[simp] theorem raiseFault_nrk (code : FCode) (s : State) : (raiseFault code s).nrk = s.nrk := rfl
@[simp] theorem raiseFault_seedbuf (code : FCode) (s : State) : (raiseFault code s).seedbuf = s.seedbuf := rfl
@[simp] theorem raiseFault_rst (code : FCode) (s : State) : (raiseFault code s).rst = s.rst := rfl
@[simp] theorem raiseFault_cmd (code : FCode) (s : State) : (raiseFault code s).cmd = s.cmd := rfl
@[simp] theorem raiseFault_latch (code : FCode) (s : State) : (raiseFault code s).latch = s.latch := rfl
@[simp] theorem raiseFault_pace (code : FCode) (s : State) : (raiseFault code s).pace = s.pace := rfl
@[simp] theorem raiseFault_sent (code : FCode) (s : State) : (raiseFault code s).sent = s.sent := rfl
@[simp] theorem raiseFault_out (code : FCode) (s : State) : (raiseFault code s).out = s.out := rfl

/-! What `takeReset` does to each register. -/

@[simp] theorem takeReset_rk (s : State) : (takeReset s).rk = Schedule.zero := rfl
@[simp] theorem takeReset_ctr (s : State) : (takeReset s).ctr = 0#128 := rfl
@[simp] theorem takeReset_seeded (s : State) : (takeReset s).seeded = false := rfl
@[simp] theorem takeReset_fault (s : State) : (takeReset s).fault = false := rfl
@[simp] theorem takeReset_fcode (s : State) : (takeReset s).fcode = .none := rfl
@[simp] theorem takeReset_phase (s : State) : (takeReset s).phase = .idle := rfl
@[simp] theorem takeReset_rem (s : State) : (takeReset s).rem = 0#64 := rfl
@[simp] theorem takeReset_off (s : State) : (takeReset s).off = 0#64 := rfl
@[simp] theorem takeReset_scr (s : State) : (takeReset s).scr = scratchZero := rfl
@[simp] theorem takeReset_f (s : State) : (takeReset s).f = 0#128 := rfl
@[simp] theorem takeReset_kb (s : State) : (takeReset s).kb = 0#128 := rfl
@[simp] theorem takeReset_nrk (s : State) : (takeReset s).nrk = Schedule.zero := rfl
@[simp] theorem takeReset_seedbuf (s : State) : (takeReset s).seedbuf = 0#256 := rfl
@[simp] theorem takeReset_rst (s : State) : (takeReset s).rst = false := rfl
@[simp] theorem takeReset_cmd (s : State) : (takeReset s).cmd = s.cmd := rfl
@[simp] theorem takeReset_latch (s : State) : (takeReset s).latch = [] := rfl
@[simp] theorem takeReset_pace (s : State) : (takeReset s).pace = s.pace := rfl
@[simp] theorem takeReset_sent (s : State) : (takeReset s).sent = 0 := rfl
@[simp] theorem takeReset_out (s : State) : (takeReset s).out = s.out := rfl

/-! What `seedCommand` does to each register. -/

@[simp] theorem seedCommand_rk (x : Seed) (s : State) : (seedCommand x s).rk = expand (seedKey x) := rfl
@[simp] theorem seedCommand_ctr (x : Seed) (s : State) : (seedCommand x s).ctr = seedCounter x := rfl
@[simp] theorem seedCommand_seeded (x : Seed) (s : State) : (seedCommand x s).seeded = true := rfl
@[simp] theorem seedCommand_fault (x : Seed) (s : State) : (seedCommand x s).fault = s.fault := rfl
@[simp] theorem seedCommand_fcode (x : Seed) (s : State) : (seedCommand x s).fcode = s.fcode := rfl
@[simp] theorem seedCommand_phase (x : Seed) (s : State) : (seedCommand x s).phase = s.phase := rfl
@[simp] theorem seedCommand_rem (x : Seed) (s : State) : (seedCommand x s).rem = s.rem := rfl
@[simp] theorem seedCommand_off (x : Seed) (s : State) : (seedCommand x s).off = 0#64 := rfl
@[simp] theorem seedCommand_scr (x : Seed) (s : State) : (seedCommand x s).scr = scratchZero := rfl
@[simp] theorem seedCommand_f (x : Seed) (s : State) : (seedCommand x s).f = 0#128 := rfl
@[simp] theorem seedCommand_kb (x : Seed) (s : State) : (seedCommand x s).kb = 0#128 := rfl
@[simp] theorem seedCommand_nrk (x : Seed) (s : State) : (seedCommand x s).nrk = Schedule.zero := rfl
@[simp] theorem seedCommand_seedbuf (x : Seed) (s : State) : (seedCommand x s).seedbuf = 0#256 := rfl
@[simp] theorem seedCommand_rst (x : Seed) (s : State) : (seedCommand x s).rst = s.rst := rfl
@[simp] theorem seedCommand_cmd (x : Seed) (s : State) : (seedCommand x s).cmd = s.cmd := rfl
@[simp] theorem seedCommand_latch (x : Seed) (s : State) : (seedCommand x s).latch = s.latch := rfl
@[simp] theorem seedCommand_pace (x : Seed) (s : State) : (seedCommand x s).pace = s.pace := rfl
@[simp] theorem seedCommand_sent (x : Seed) (s : State) : (seedCommand x s).sent = s.sent := rfl
@[simp] theorem seedCommand_out (x : Seed) (s : State) : (seedCommand x s).out = s.out := rfl

/-! What `acceptSeed` does to each register. -/

@[simp] theorem acceptSeed_rk (x : Seed) (s : State) : (acceptSeed x s).rk = s.rk := rfl
@[simp] theorem acceptSeed_ctr (x : Seed) (s : State) : (acceptSeed x s).ctr = s.ctr := rfl
@[simp] theorem acceptSeed_seeded (x : Seed) (s : State) : (acceptSeed x s).seeded = s.seeded := rfl
@[simp] theorem acceptSeed_fault (x : Seed) (s : State) : (acceptSeed x s).fault = s.fault := rfl
@[simp] theorem acceptSeed_fcode (x : Seed) (s : State) : (acceptSeed x s).fcode = s.fcode := rfl
@[simp] theorem acceptSeed_phase (x : Seed) (s : State) : (acceptSeed x s).phase = .sdexp := rfl
@[simp] theorem acceptSeed_rem (x : Seed) (s : State) : (acceptSeed x s).rem = s.rem := rfl
@[simp] theorem acceptSeed_off (x : Seed) (s : State) : (acceptSeed x s).off = s.off := rfl
@[simp] theorem acceptSeed_scr (x : Seed) (s : State) : (acceptSeed x s).scr = s.scr := rfl
@[simp] theorem acceptSeed_f (x : Seed) (s : State) : (acceptSeed x s).f = s.f := rfl
@[simp] theorem acceptSeed_kb (x : Seed) (s : State) : (acceptSeed x s).kb = s.kb := rfl
@[simp] theorem acceptSeed_nrk (x : Seed) (s : State) : (acceptSeed x s).nrk = s.nrk := rfl
@[simp] theorem acceptSeed_seedbuf (x : Seed) (s : State) : (acceptSeed x s).seedbuf = x := rfl
@[simp] theorem acceptSeed_rst (x : Seed) (s : State) : (acceptSeed x s).rst = s.rst := rfl
@[simp] theorem acceptSeed_cmd (x : Seed) (s : State) : (acceptSeed x s).cmd = s.cmd := rfl
@[simp] theorem acceptSeed_latch (x : Seed) (s : State) : (acceptSeed x s).latch = s.latch := rfl
@[simp] theorem acceptSeed_pace (x : Seed) (s : State) : (acceptSeed x s).pace = s.pace := rfl
@[simp] theorem acceptSeed_sent (x : Seed) (s : State) : (acceptSeed x s).sent = s.sent := rfl
@[simp] theorem acceptSeed_out (x : Seed) (s : State) : (acceptSeed x s).out = s.out := rfl

/-! What `sdexpStep` does to each register. -/

@[simp] theorem sdexpStep_rk (s : State) : (sdexpStep s).rk = s.rk := rfl
@[simp] theorem sdexpStep_ctr (s : State) : (sdexpStep s).ctr = s.ctr := rfl
@[simp] theorem sdexpStep_seeded (s : State) : (sdexpStep s).seeded = s.seeded := rfl
@[simp] theorem sdexpStep_fault (s : State) : (sdexpStep s).fault = s.fault := rfl
@[simp] theorem sdexpStep_fcode (s : State) : (sdexpStep s).fcode = s.fcode := rfl
@[simp] theorem sdexpStep_phase (s : State) : (sdexpStep s).phase = .sdcommit := rfl
@[simp] theorem sdexpStep_rem (s : State) : (sdexpStep s).rem = s.rem := rfl
@[simp] theorem sdexpStep_off (s : State) : (sdexpStep s).off = s.off := rfl
@[simp] theorem sdexpStep_scr (s : State) : (sdexpStep s).scr = s.scr := rfl
@[simp] theorem sdexpStep_f (s : State) : (sdexpStep s).f = s.f := rfl
@[simp] theorem sdexpStep_kb (s : State) : (sdexpStep s).kb = s.kb := rfl
@[simp] theorem sdexpStep_nrk (s : State) : (sdexpStep s).nrk = expand (seedKey s.seedbuf) := rfl
@[simp] theorem sdexpStep_seedbuf (s : State) : (sdexpStep s).seedbuf = s.seedbuf := rfl
@[simp] theorem sdexpStep_rst (s : State) : (sdexpStep s).rst = s.rst := rfl
@[simp] theorem sdexpStep_cmd (s : State) : (sdexpStep s).cmd = s.cmd := rfl
@[simp] theorem sdexpStep_latch (s : State) : (sdexpStep s).latch = s.latch := rfl
@[simp] theorem sdexpStep_pace (s : State) : (sdexpStep s).pace = s.pace := rfl
@[simp] theorem sdexpStep_sent (s : State) : (sdexpStep s).sent = s.sent := rfl
@[simp] theorem sdexpStep_out (s : State) : (sdexpStep s).out = s.out := rfl

/-! What `sdcommitStep` does to each register. -/

@[simp] theorem sdcommitStep_rk (s : State) : (sdcommitStep s).rk = s.nrk := rfl
@[simp] theorem sdcommitStep_ctr (s : State) : (sdcommitStep s).ctr = seedCounter s.seedbuf := rfl
@[simp] theorem sdcommitStep_seeded (s : State) : (sdcommitStep s).seeded = true := rfl
@[simp] theorem sdcommitStep_fault (s : State) : (sdcommitStep s).fault = s.fault := rfl
@[simp] theorem sdcommitStep_fcode (s : State) : (sdcommitStep s).fcode = s.fcode := rfl
@[simp] theorem sdcommitStep_phase (s : State) : (sdcommitStep s).phase = .idle := rfl
@[simp] theorem sdcommitStep_rem (s : State) : (sdcommitStep s).rem = s.rem := rfl
@[simp] theorem sdcommitStep_off (s : State) : (sdcommitStep s).off = 0#64 := rfl
@[simp] theorem sdcommitStep_scr (s : State) : (sdcommitStep s).scr = scratchZero := rfl
@[simp] theorem sdcommitStep_f (s : State) : (sdcommitStep s).f = 0#128 := rfl
@[simp] theorem sdcommitStep_kb (s : State) : (sdcommitStep s).kb = 0#128 := rfl
@[simp] theorem sdcommitStep_nrk (s : State) : (sdcommitStep s).nrk = Schedule.zero := rfl
@[simp] theorem sdcommitStep_seedbuf (s : State) : (sdcommitStep s).seedbuf = 0#256 := rfl
@[simp] theorem sdcommitStep_rst (s : State) : (sdcommitStep s).rst = s.rst := rfl
@[simp] theorem sdcommitStep_cmd (s : State) : (sdcommitStep s).cmd = s.cmd := rfl
@[simp] theorem sdcommitStep_latch (s : State) : (sdcommitStep s).latch = s.latch := rfl
@[simp] theorem sdcommitStep_pace (s : State) : (sdcommitStep s).pace = s.pace := rfl
@[simp] theorem sdcommitStep_sent (s : State) : (sdcommitStep s).sent = s.sent := rfl
@[simp] theorem sdcommitStep_out (s : State) : (sdcommitStep s).out = s.out := rfl

/-! What `fillCommand` does to each register. -/

@[simp] theorem fillCommand_rk (c : Config) (n : Nat) (s : State) :
    (fillCommand c n s).rk = rekey s.rk (ctrAdd c.ctrIncWidth s.ctr (blockCount n)) := rfl
@[simp] theorem fillCommand_ctr (c : Config) (n : Nat) (s : State) :
    (fillCommand c n s).ctr = ctrAdd c.ctrIncWidth s.ctr (blockCount n) := rfl
@[simp] theorem fillCommand_seeded (c : Config) (n : Nat) (s : State) : (fillCommand c n s).seeded = s.seeded := rfl
@[simp] theorem fillCommand_fault (c : Config) (n : Nat) (s : State) : (fillCommand c n s).fault = s.fault := rfl
@[simp] theorem fillCommand_fcode (c : Config) (n : Nat) (s : State) : (fillCommand c n s).fcode = s.fcode := rfl
@[simp] theorem fillCommand_phase (c : Config) (n : Nat) (s : State) : (fillCommand c n s).phase = s.phase := rfl
@[simp] theorem fillCommand_rem (c : Config) (n : Nat) (s : State) : (fillCommand c n s).rem = 0#64 := rfl
@[simp] theorem fillCommand_off (c : Config) (n : Nat) (s : State) : (fillCommand c n s).off = lenOf n := rfl
@[simp] theorem fillCommand_scr (c : Config) (n : Nat) (s : State) :
    (fillCommand c n s).scr = scratchZero := rfl
@[simp] theorem fillCommand_f (c : Config) (n : Nat) (s : State) : (fillCommand c n s).f = 0#128 := rfl
@[simp] theorem fillCommand_kb (c : Config) (n : Nat) (s : State) : (fillCommand c n s).kb = 0#128 := rfl
@[simp] theorem fillCommand_nrk (c : Config) (n : Nat) (s : State) :
    (fillCommand c n s).nrk = Schedule.zero := rfl
@[simp] theorem fillCommand_seedbuf (c : Config) (n : Nat) (s : State) : (fillCommand c n s).seedbuf = 0#256 := rfl
@[simp] theorem fillCommand_rst (c : Config) (n : Nat) (s : State) : (fillCommand c n s).rst = s.rst := rfl
@[simp] theorem fillCommand_cmd (c : Config) (n : Nat) (s : State) : (fillCommand c n s).cmd = s.cmd := rfl
@[simp] theorem fillCommand_latch (c : Config) (n : Nat) (s : State) : (fillCommand c n s).latch = s.latch := rfl
@[simp] theorem fillCommand_pace (c : Config) (n : Nat) (s : State) : (fillCommand c n s).pace = s.pace := rfl
@[simp] theorem fillCommand_sent (c : Config) (n : Nat) (s : State) : (fillCommand c n s).sent = 0 := rfl
@[simp] theorem fillCommand_out (c : Config) (n : Nat) (s : State) :
    (fillCommand c n s).out = (OutSpace.fresh n).write 0 ((streamBytes c.ctrIncWidth s.rk s.ctr (blockCount n)).take n) := rfl

/-! What `acceptFill` does to each register. -/

@[simp] theorem acceptFill_rk (c : Config) (n : Nat) (s : State) : (acceptFill c n s).rk = s.rk := rfl
@[simp] theorem acceptFill_ctr (c : Config) (n : Nat) (s : State) : (acceptFill c n s).ctr = s.ctr := rfl
@[simp] theorem acceptFill_seeded (c : Config) (n : Nat) (s : State) : (acceptFill c n s).seeded = s.seeded := rfl
@[simp] theorem acceptFill_fault (c : Config) (n : Nat) (s : State) : (acceptFill c n s).fault = s.fault := rfl
@[simp] theorem acceptFill_fcode (c : Config) (n : Nat) (s : State) : (acceptFill c n s).fcode = s.fcode := rfl
@[simp] theorem acceptFill_phase (c : Config) (n : Nat) (s : State) :
    (acceptFill c n s).phase = select c n := rfl
@[simp] theorem acceptFill_rem (c : Config) (n : Nat) (s : State) : (acceptFill c n s).rem = lenOf n := rfl
@[simp] theorem acceptFill_off (c : Config) (n : Nat) (s : State) : (acceptFill c n s).off = 0#64 := rfl
@[simp] theorem acceptFill_scr (c : Config) (n : Nat) (s : State) : (acceptFill c n s).scr = s.scr := rfl
@[simp] theorem acceptFill_f (c : Config) (n : Nat) (s : State) : (acceptFill c n s).f = s.f := rfl
@[simp] theorem acceptFill_kb (c : Config) (n : Nat) (s : State) : (acceptFill c n s).kb = s.kb := rfl
@[simp] theorem acceptFill_nrk (c : Config) (n : Nat) (s : State) : (acceptFill c n s).nrk = s.nrk := rfl
@[simp] theorem acceptFill_seedbuf (c : Config) (n : Nat) (s : State) : (acceptFill c n s).seedbuf = s.seedbuf := rfl
@[simp] theorem acceptFill_rst (c : Config) (n : Nat) (s : State) : (acceptFill c n s).rst = s.rst := rfl
@[simp] theorem acceptFill_cmd (c : Config) (n : Nat) (s : State) : (acceptFill c n s).cmd = s.cmd := rfl
@[simp] theorem acceptFill_latch (c : Config) (n : Nat) (s : State) : (acceptFill c n s).latch = s.latch := rfl
@[simp] theorem acceptFill_pace (c : Config) (n : Nat) (s : State) : (acceptFill c n s).pace = s.pace := rfl
@[simp] theorem acceptFill_sent (c : Config) (n : Nat) (s : State) : (acceptFill c n s).sent = 0 := rfl
@[simp] theorem acceptFill_out (c : Config) (n : Nat) (s : State) :
    (acceptFill c n s).out = OutSpace.fresh n := rfl

/-! What `takeOutput` does to each register. -/

@[simp] theorem takeOutput_rk (c : Config) (s : State) : (takeOutput c s).rk = s.rk := rfl
@[simp] theorem takeOutput_ctr (c : Config) (s : State) : (takeOutput c s).ctr = s.ctr := rfl
@[simp] theorem takeOutput_seeded (c : Config) (s : State) : (takeOutput c s).seeded = s.seeded := rfl
@[simp] theorem takeOutput_fault (c : Config) (s : State) : (takeOutput c s).fault = s.fault := rfl
@[simp] theorem takeOutput_fcode (c : Config) (s : State) : (takeOutput c s).fcode = s.fcode := rfl
@[simp] theorem takeOutput_phase (c : Config) (s : State) : (takeOutput c s).phase = s.phase := rfl
@[simp] theorem takeOutput_rem (c : Config) (s : State) : (takeOutput c s).rem = s.rem := rfl
@[simp] theorem takeOutput_off (c : Config) (s : State) : (takeOutput c s).off = s.off := rfl
@[simp] theorem takeOutput_scr (c : Config) (s : State) : (takeOutput c s).scr = s.scr := rfl
@[simp] theorem takeOutput_f (c : Config) (s : State) : (takeOutput c s).f = s.f := rfl
@[simp] theorem takeOutput_kb (c : Config) (s : State) : (takeOutput c s).kb = s.kb := rfl
@[simp] theorem takeOutput_nrk (c : Config) (s : State) : (takeOutput c s).nrk = s.nrk := rfl
@[simp] theorem takeOutput_seedbuf (c : Config) (s : State) : (takeOutput c s).seedbuf = s.seedbuf := rfl
@[simp] theorem takeOutput_rst (c : Config) (s : State) : (takeOutput c s).rst = s.rst := rfl
@[simp] theorem takeOutput_cmd (c : Config) (s : State) : (takeOutput c s).cmd = s.cmd := rfl
@[simp] theorem takeOutput_latch (c : Config) (s : State) : (takeOutput c s).latch = s.latch := rfl
@[simp] theorem takeOutput_pace (c : Config) (s : State) : (takeOutput c s).pace = s.pace.after s.took := rfl
@[simp] theorem takeOutput_sent (c : Config) (s : State) : (takeOutput c s).sent = s.sent + s.took := rfl
@[simp] theorem takeOutput_out (c : Config) (s : State) :
    (takeOutput c s).out = s.out.write (s.off.toNat + s.sent) (((s.outputBytes c).drop s.sent).take s.took) := rfl

/-! What `commitOutput` does to each register. -/

@[simp] theorem commitOutput_rk (c : Config) (s : State) : (commitOutput c s).rk = s.rk := rfl
@[simp] theorem commitOutput_ctr (c : Config) (s : State) :
    (commitOutput c s).ctr = ctrAdd c.ctrIncWidth s.ctr (outputBlocks s.phase) := rfl
@[simp] theorem commitOutput_seeded (c : Config) (s : State) : (commitOutput c s).seeded = s.seeded := rfl
@[simp] theorem commitOutput_fault (c : Config) (s : State) : (commitOutput c s).fault = s.fault := rfl
@[simp] theorem commitOutput_fcode (c : Config) (s : State) : (commitOutput c s).fcode = s.fcode := rfl
@[simp] theorem commitOutput_phase (c : Config) (s : State) :
    (commitOutput c s).phase = select c (s.rem - BitVec.ofNat 64 s.outputCount).toNat := rfl
@[simp] theorem commitOutput_rem (c : Config) (s : State) :
    (commitOutput c s).rem = s.rem - BitVec.ofNat 64 s.outputCount := rfl
@[simp] theorem commitOutput_off (c : Config) (s : State) :
    (commitOutput c s).off = s.off + BitVec.ofNat 64 s.outputCount := rfl
@[simp] theorem commitOutput_scr (c : Config) (s : State) :
    (commitOutput c s).scr = scratchWith s.scr (outputBlocks s.phase) (outBlock c.ctrIncWidth s.rk s.ctr) := rfl
@[simp] theorem commitOutput_f (c : Config) (s : State) : (commitOutput c s).f = s.f := rfl
@[simp] theorem commitOutput_kb (c : Config) (s : State) : (commitOutput c s).kb = s.kb := rfl
@[simp] theorem commitOutput_nrk (c : Config) (s : State) : (commitOutput c s).nrk = s.nrk := rfl
@[simp] theorem commitOutput_seedbuf (c : Config) (s : State) : (commitOutput c s).seedbuf = s.seedbuf := rfl
@[simp] theorem commitOutput_rst (c : Config) (s : State) : (commitOutput c s).rst = s.rst := rfl
@[simp] theorem commitOutput_cmd (c : Config) (s : State) : (commitOutput c s).cmd = s.cmd := rfl
@[simp] theorem commitOutput_latch (c : Config) (s : State) : (commitOutput c s).latch = s.latch := rfl
@[simp] theorem commitOutput_pace (c : Config) (s : State) : (commitOutput c s).pace = s.pace := rfl
@[simp] theorem commitOutput_sent (c : Config) (s : State) : (commitOutput c s).sent = 0 := rfl
@[simp] theorem commitOutput_out (c : Config) (s : State) : (commitOutput c s).out = s.out := rfl

/-! What `rkencWrites` does to each register. -/

@[simp] theorem rkencWrites_rk (s : State) : (rkencWrites s).rk = s.rk := rfl
@[simp] theorem rkencWrites_ctr (s : State) : (rkencWrites s).ctr = s.ctr := rfl
@[simp] theorem rkencWrites_seeded (s : State) : (rkencWrites s).seeded = s.seeded := rfl
@[simp] theorem rkencWrites_fault (s : State) : (rkencWrites s).fault = s.fault := rfl
@[simp] theorem rkencWrites_fcode (s : State) : (rkencWrites s).fcode = s.fcode := rfl
@[simp] theorem rkencWrites_phase (s : State) : (rkencWrites s).phase = .rkexp := rfl
@[simp] theorem rkencWrites_rem (s : State) : (rkencWrites s).rem = s.rem := rfl
@[simp] theorem rkencWrites_off (s : State) : (rkencWrites s).off = s.off := rfl
@[simp] theorem rkencWrites_scr (s : State) : (rkencWrites s).scr = s.scr := rfl
@[simp] theorem rkencWrites_f (s : State) : (rkencWrites s).f = s.ctr ^^^ flipBlock := rfl
@[simp] theorem rkencWrites_kb (s : State) : (rkencWrites s).kb = encBlk s.rk (s.ctr ^^^ flipBlock) := rfl
@[simp] theorem rkencWrites_nrk (s : State) : (rkencWrites s).nrk = s.nrk := rfl
@[simp] theorem rkencWrites_seedbuf (s : State) : (rkencWrites s).seedbuf = s.seedbuf := rfl
@[simp] theorem rkencWrites_rst (s : State) : (rkencWrites s).rst = s.rst := rfl
@[simp] theorem rkencWrites_cmd (s : State) : (rkencWrites s).cmd = s.cmd := rfl
@[simp] theorem rkencWrites_latch (s : State) : (rkencWrites s).latch = s.latch := rfl
@[simp] theorem rkencWrites_pace (s : State) : (rkencWrites s).pace = s.pace := rfl
@[simp] theorem rkencWrites_sent (s : State) : (rkencWrites s).sent = s.sent := rfl
@[simp] theorem rkencWrites_out (s : State) : (rkencWrites s).out = s.out := rfl

/-! What `rkexpStep` does to each register. -/

@[simp] theorem rkexpStep_rk (s : State) : (rkexpStep s).rk = s.rk := rfl
@[simp] theorem rkexpStep_ctr (s : State) : (rkexpStep s).ctr = s.ctr := rfl
@[simp] theorem rkexpStep_seeded (s : State) : (rkexpStep s).seeded = s.seeded := rfl
@[simp] theorem rkexpStep_fault (s : State) : (rkexpStep s).fault = s.fault := rfl
@[simp] theorem rkexpStep_fcode (s : State) : (rkexpStep s).fcode = s.fcode := rfl
@[simp] theorem rkexpStep_phase (s : State) : (rkexpStep s).phase = .swap := rfl
@[simp] theorem rkexpStep_rem (s : State) : (rkexpStep s).rem = s.rem := rfl
@[simp] theorem rkexpStep_off (s : State) : (rkexpStep s).off = s.off := rfl
@[simp] theorem rkexpStep_scr (s : State) : (rkexpStep s).scr = s.scr := rfl
@[simp] theorem rkexpStep_f (s : State) : (rkexpStep s).f = s.f := rfl
@[simp] theorem rkexpStep_kb (s : State) : (rkexpStep s).kb = s.kb := rfl
@[simp] theorem rkexpStep_nrk (s : State) : (rkexpStep s).nrk = expand s.kb := rfl
@[simp] theorem rkexpStep_seedbuf (s : State) : (rkexpStep s).seedbuf = s.seedbuf := rfl
@[simp] theorem rkexpStep_rst (s : State) : (rkexpStep s).rst = s.rst := rfl
@[simp] theorem rkexpStep_cmd (s : State) : (rkexpStep s).cmd = s.cmd := rfl
@[simp] theorem rkexpStep_latch (s : State) : (rkexpStep s).latch = s.latch := rfl
@[simp] theorem rkexpStep_pace (s : State) : (rkexpStep s).pace = s.pace := rfl
@[simp] theorem rkexpStep_sent (s : State) : (rkexpStep s).sent = s.sent := rfl
@[simp] theorem rkexpStep_out (s : State) : (rkexpStep s).out = s.out := rfl

/-! What `swapStep` does to each register. -/

@[simp] theorem swapStep_rk (s : State) : (swapStep s).rk = s.nrk := rfl
@[simp] theorem swapStep_ctr (s : State) : (swapStep s).ctr = s.ctr := rfl
@[simp] theorem swapStep_seeded (s : State) : (swapStep s).seeded = s.seeded := rfl
@[simp] theorem swapStep_fault (s : State) : (swapStep s).fault = s.fault := rfl
@[simp] theorem swapStep_fcode (s : State) : (swapStep s).fcode = s.fcode := rfl
@[simp] theorem swapStep_phase (s : State) : (swapStep s).phase = .idle := rfl
@[simp] theorem swapStep_rem (s : State) : (swapStep s).rem = s.rem := rfl
@[simp] theorem swapStep_off (s : State) : (swapStep s).off = s.off := rfl
@[simp] theorem swapStep_scr (s : State) : (swapStep s).scr = scratchZero := rfl
@[simp] theorem swapStep_f (s : State) : (swapStep s).f = 0#128 := rfl
@[simp] theorem swapStep_kb (s : State) : (swapStep s).kb = 0#128 := rfl
@[simp] theorem swapStep_nrk (s : State) : (swapStep s).nrk = Schedule.zero := rfl
@[simp] theorem swapStep_seedbuf (s : State) : (swapStep s).seedbuf = 0#256 := rfl
@[simp] theorem swapStep_rst (s : State) : (swapStep s).rst = s.rst := rfl
@[simp] theorem swapStep_cmd (s : State) : (swapStep s).cmd = s.cmd := rfl
@[simp] theorem swapStep_latch (s : State) : (swapStep s).latch = s.latch := rfl
@[simp] theorem swapStep_pace (s : State) : (swapStep s).pace = s.pace := rfl
@[simp] theorem swapStep_sent (s : State) : (swapStep s).sent = s.sent := rfl
@[simp] theorem swapStep_out (s : State) : (swapStep s).out = s.out := rfl

/-! What `hostPresents` does to each register. -/

@[simp] theorem hostPresents_rk (bs : List Byte) (s : State) : (hostPresents bs s).rk = s.rk := rfl
@[simp] theorem hostPresents_ctr (bs : List Byte) (s : State) : (hostPresents bs s).ctr = s.ctr := rfl
@[simp] theorem hostPresents_seeded (bs : List Byte) (s : State) : (hostPresents bs s).seeded = s.seeded := rfl
@[simp] theorem hostPresents_fault (bs : List Byte) (s : State) : (hostPresents bs s).fault = s.fault := rfl
@[simp] theorem hostPresents_fcode (bs : List Byte) (s : State) : (hostPresents bs s).fcode = s.fcode := rfl
@[simp] theorem hostPresents_phase (bs : List Byte) (s : State) : (hostPresents bs s).phase = s.phase := rfl
@[simp] theorem hostPresents_rem (bs : List Byte) (s : State) : (hostPresents bs s).rem = s.rem := rfl
@[simp] theorem hostPresents_off (bs : List Byte) (s : State) : (hostPresents bs s).off = s.off := rfl
@[simp] theorem hostPresents_scr (bs : List Byte) (s : State) : (hostPresents bs s).scr = s.scr := rfl
@[simp] theorem hostPresents_f (bs : List Byte) (s : State) : (hostPresents bs s).f = s.f := rfl
@[simp] theorem hostPresents_kb (bs : List Byte) (s : State) : (hostPresents bs s).kb = s.kb := rfl
@[simp] theorem hostPresents_nrk (bs : List Byte) (s : State) : (hostPresents bs s).nrk = s.nrk := rfl
@[simp] theorem hostPresents_seedbuf (bs : List Byte) (s : State) : (hostPresents bs s).seedbuf = s.seedbuf := rfl
@[simp] theorem hostPresents_rst (bs : List Byte) (s : State) : (hostPresents bs s).rst = s.rst := rfl
@[simp] theorem hostPresents_cmd (bs : List Byte) (s : State) : (hostPresents bs s).cmd = s.cmd ++ bs := rfl
@[simp] theorem hostPresents_latch (bs : List Byte) (s : State) : (hostPresents bs s).latch = s.latch := rfl
@[simp] theorem hostPresents_pace (bs : List Byte) (s : State) : (hostPresents bs s).pace = s.pace := rfl
@[simp] theorem hostPresents_sent (bs : List Byte) (s : State) : (hostPresents bs s).sent = s.sent := rfl
@[simp] theorem hostPresents_out (bs : List Byte) (s : State) : (hostPresents bs s).out = s.out := rfl

/-! What `hostWithdraws` does to each register. -/

@[simp] theorem hostWithdraws_rk (s : State) : (hostWithdraws s).rk = s.rk := rfl
@[simp] theorem hostWithdraws_ctr (s : State) : (hostWithdraws s).ctr = s.ctr := rfl
@[simp] theorem hostWithdraws_seeded (s : State) : (hostWithdraws s).seeded = s.seeded := rfl
@[simp] theorem hostWithdraws_fault (s : State) : (hostWithdraws s).fault = s.fault := rfl
@[simp] theorem hostWithdraws_fcode (s : State) : (hostWithdraws s).fcode = s.fcode := rfl
@[simp] theorem hostWithdraws_phase (s : State) : (hostWithdraws s).phase = s.phase := rfl
@[simp] theorem hostWithdraws_rem (s : State) : (hostWithdraws s).rem = s.rem := rfl
@[simp] theorem hostWithdraws_off (s : State) : (hostWithdraws s).off = s.off := rfl
@[simp] theorem hostWithdraws_scr (s : State) : (hostWithdraws s).scr = s.scr := rfl
@[simp] theorem hostWithdraws_f (s : State) : (hostWithdraws s).f = s.f := rfl
@[simp] theorem hostWithdraws_kb (s : State) : (hostWithdraws s).kb = s.kb := rfl
@[simp] theorem hostWithdraws_nrk (s : State) : (hostWithdraws s).nrk = s.nrk := rfl
@[simp] theorem hostWithdraws_seedbuf (s : State) : (hostWithdraws s).seedbuf = s.seedbuf := rfl
@[simp] theorem hostWithdraws_rst (s : State) : (hostWithdraws s).rst = s.rst := rfl
@[simp] theorem hostWithdraws_cmd (s : State) : (hostWithdraws s).cmd = [] := rfl
@[simp] theorem hostWithdraws_latch (s : State) : (hostWithdraws s).latch = s.latch := rfl
@[simp] theorem hostWithdraws_pace (s : State) : (hostWithdraws s).pace = s.pace := rfl
@[simp] theorem hostWithdraws_sent (s : State) : (hostWithdraws s).sent = s.sent := rfl
@[simp] theorem hostWithdraws_out (s : State) : (hostWithdraws s).out = s.out := rfl

/-! What `hostResets` does to each register. -/

@[simp] theorem hostResets_rk (s : State) : (hostResets s).rk = s.rk := rfl
@[simp] theorem hostResets_ctr (s : State) : (hostResets s).ctr = s.ctr := rfl
@[simp] theorem hostResets_seeded (s : State) : (hostResets s).seeded = s.seeded := rfl
@[simp] theorem hostResets_fault (s : State) : (hostResets s).fault = s.fault := rfl
@[simp] theorem hostResets_fcode (s : State) : (hostResets s).fcode = s.fcode := rfl
@[simp] theorem hostResets_phase (s : State) : (hostResets s).phase = s.phase := rfl
@[simp] theorem hostResets_rem (s : State) : (hostResets s).rem = s.rem := rfl
@[simp] theorem hostResets_off (s : State) : (hostResets s).off = s.off := rfl
@[simp] theorem hostResets_scr (s : State) : (hostResets s).scr = s.scr := rfl
@[simp] theorem hostResets_f (s : State) : (hostResets s).f = s.f := rfl
@[simp] theorem hostResets_kb (s : State) : (hostResets s).kb = s.kb := rfl
@[simp] theorem hostResets_nrk (s : State) : (hostResets s).nrk = s.nrk := rfl
@[simp] theorem hostResets_seedbuf (s : State) : (hostResets s).seedbuf = s.seedbuf := rfl
@[simp] theorem hostResets_rst (s : State) : (hostResets s).rst = true := rfl
@[simp] theorem hostResets_cmd (s : State) : (hostResets s).cmd = s.cmd := rfl
@[simp] theorem hostResets_latch (s : State) : (hostResets s).latch = s.latch := rfl
@[simp] theorem hostResets_pace (s : State) : (hostResets s).pace = s.pace := rfl
@[simp] theorem hostResets_sent (s : State) : (hostResets s).sent = s.sent := rfl
@[simp] theorem hostResets_out (s : State) : (hostResets s).out = s.out := rfl

/-! What `hostPaces` does to each register. -/

@[simp] theorem hostPaces_rk (p : Pace) (s : State) : (hostPaces p s).rk = s.rk := rfl
@[simp] theorem hostPaces_ctr (p : Pace) (s : State) : (hostPaces p s).ctr = s.ctr := rfl
@[simp] theorem hostPaces_seeded (p : Pace) (s : State) : (hostPaces p s).seeded = s.seeded := rfl
@[simp] theorem hostPaces_fault (p : Pace) (s : State) : (hostPaces p s).fault = s.fault := rfl
@[simp] theorem hostPaces_fcode (p : Pace) (s : State) : (hostPaces p s).fcode = s.fcode := rfl
@[simp] theorem hostPaces_phase (p : Pace) (s : State) : (hostPaces p s).phase = s.phase := rfl
@[simp] theorem hostPaces_rem (p : Pace) (s : State) : (hostPaces p s).rem = s.rem := rfl
@[simp] theorem hostPaces_off (p : Pace) (s : State) : (hostPaces p s).off = s.off := rfl
@[simp] theorem hostPaces_scr (p : Pace) (s : State) : (hostPaces p s).scr = s.scr := rfl
@[simp] theorem hostPaces_f (p : Pace) (s : State) : (hostPaces p s).f = s.f := rfl
@[simp] theorem hostPaces_kb (p : Pace) (s : State) : (hostPaces p s).kb = s.kb := rfl
@[simp] theorem hostPaces_nrk (p : Pace) (s : State) : (hostPaces p s).nrk = s.nrk := rfl
@[simp] theorem hostPaces_seedbuf (p : Pace) (s : State) : (hostPaces p s).seedbuf = s.seedbuf := rfl
@[simp] theorem hostPaces_rst (p : Pace) (s : State) : (hostPaces p s).rst = s.rst := rfl
@[simp] theorem hostPaces_cmd (p : Pace) (s : State) : (hostPaces p s).cmd = s.cmd := rfl
@[simp] theorem hostPaces_latch (p : Pace) (s : State) : (hostPaces p s).latch = s.latch := rfl
@[simp] theorem hostPaces_pace (p : Pace) (s : State) : (hostPaces p s).pace = p := rfl
@[simp] theorem hostPaces_sent (p : Pace) (s : State) : (hostPaces p s).sent = s.sent := rfl
@[simp] theorem hostPaces_out (p : Pace) (s : State) : (hostPaces p s).out = s.out := rfl

/-- Two states with the same registers and ports are the same state. -/
theorem State.ext_fields {s t : State}
    (h_rk : s.rk = t.rk)
    (h_ctr : s.ctr = t.ctr)
    (h_seeded : s.seeded = t.seeded)
    (h_fault : s.fault = t.fault)
    (h_fcode : s.fcode = t.fcode)
    (h_phase : s.phase = t.phase)
    (h_rem : s.rem = t.rem)
    (h_off : s.off = t.off)
    (h_scr : s.scr = t.scr)
    (h_f : s.f = t.f)
    (h_kb : s.kb = t.kb)
    (h_nrk : s.nrk = t.nrk)
    (h_seedbuf : s.seedbuf = t.seedbuf)
    (h_rst : s.rst = t.rst)
    (h_cmd : s.cmd = t.cmd)
    (h_latch : s.latch = t.latch)
    (h_pace : s.pace = t.pace)
    (h_sent : s.sent = t.sent)
    (h_out : s.out = t.out) :
    s = t := by
  cases s
  cases t
  simp_all

end Sys2Proof.Machine
end

