-- ==== Sys2Proof/Laws/Bytes.lean ====
section
/-! SUPPORT. Blocks by byte and by word (spec/00_scope.md R12 to R15), and the byte lists of blocks and of the output stream. -/

namespace Sys2Proof.Machine

/-- A block is its sixteen bytes. -/
theorem block_ext {a b : Block} (h : ∀ i, i < 16 → byteAt a i = byteAt b i) : a = b := by
  apply BitVec.eq_of_getLsbD_eq
  intro k hk
  have := congrArg (fun x => x.getLsbD (k % 8)) (h (k / 8) (by omega))
  simp only [byteAt, BitVec.getLsbD_extractLsb'] at this
  rw [show 8 * (k / 8) + k % 8 = k by omega] at this
  simpa [show k % 8 < 8 by omega] using this

theorem byteAt_getLsbD (b : Block) (i k : Nat) (hk : k < 8) : (byteAt b i).getLsbD k = b.getLsbD (8 * i + k) := by
  simp [byteAt, hk]

/-- The low part of a concatenation. -/
theorem extract_low {n w : Nat} (x : BitVec n) (y : BitVec w) : (x ++ y).extractLsb' 0 w = y := by
  apply BitVec.eq_of_getLsbD_eq
  intro k hk
  simp [hk, BitVec.getLsbD_append]

/-- A slice above the low part of a concatenation. -/
theorem extract_high {n w : Nat} (x : BitVec n) (y : BitVec w) (s v : Nat) :
    (x ++ y).extractLsb' (s + w) v = x.extractLsb' s v := by
  apply BitVec.eq_of_getLsbD_eq
  intro k hk
  simp only [BitVec.getLsbD_extractLsb', BitVec.getLsbD_append]
  rw [if_neg (by omega), show s + w + k - w = s + k by omega]

theorem extract_whole {w : Nat} (y : BitVec w) : y.extractLsb' 0 w = y := by
  apply BitVec.eq_of_getLsbD_eq
  intro k hk
  simp [hk]

/-- Byte `i` of a block built byte by byte. -/
theorem byteAt_ofBytes (g : Nat → Byte) (i : Nat) (hi : i < 16) : byteAt (ofBytes g) i = g i := by
  unfold byteAt ofBytes
  interval_cases i <;> (try simp only [Nat.mul_zero, Nat.reduceMul]) <;>
    repeat (first | exact extract_low _ _ | exact extract_whole _ | refine (extract_high _ _ _ 8).trans ?_)

/-- Byte `i` of a word built byte by byte. -/
theorem wordByte_ofWordBytes (b0 b1 b2 b3 : Byte) :
    wordByte (ofWordBytes b0 b1 b2 b3) 0 = b0 ∧ wordByte (ofWordBytes b0 b1 b2 b3) 1 = b1 ∧
    wordByte (ofWordBytes b0 b1 b2 b3) 2 = b2 ∧ wordByte (ofWordBytes b0 b1 b2 b3) 3 = b3 := by
  unfold wordByte ofWordBytes
  refine ⟨?_, ?_, ?_, ?_⟩ <;> (try simp only [Nat.mul_zero, Nat.reduceMul]) <;>
    repeat (first | exact extract_low _ _ | exact extract_whole _ | refine (extract_high _ _ _ 8).trans ?_)

/-- Word `j` of a block built word by word. -/
theorem wordAt_ofWords (w0 w1 w2 w3 : Word32) :
    wordAt (ofWords w0 w1 w2 w3) 0 = w0 ∧ wordAt (ofWords w0 w1 w2 w3) 1 = w1 ∧
    wordAt (ofWords w0 w1 w2 w3) 2 = w2 ∧ wordAt (ofWords w0 w1 w2 w3) 3 = w3 := by
  unfold wordAt ofWords
  refine ⟨?_, ?_, ?_, ?_⟩ <;> (try simp only [Nat.mul_zero, Nat.reduceMul]) <;>
    repeat (first | exact extract_low _ _ | exact extract_whole _ | refine (extract_high _ _ _ 32).trans ?_)

/-- Byte `i` of word `j` is byte `4j + i` of the block (R14, R104). -/
theorem wordByte_wordAt (s : Block) (i j : Nat) (hi : i < 4) : wordByte (wordAt s j) i = byteAt s (4 * j + i) := by
  apply BitVec.eq_of_getLsbD_eq
  intro k hk
  simp only [wordByte, wordAt, byteAt, BitVec.getLsbD_extractLsb']
  simp only [hk, show 8 * i + k < 32 by omega, decide_true, Bool.true_and]
  congr 1
  omega

@[simp] theorem byteAt_xor (a b : Block) (i : Nat) : byteAt (a ^^^ b) i = byteAt a i ^^^ byteAt b i := by
  simp [byteAt, BitVec.extractLsb'_xor]

@[simp] theorem wordAt_xor (a b : Block) (j : Nat) : wordAt (a ^^^ b) j = wordAt a j ^^^ wordAt b j := by
  simp [wordAt, BitVec.extractLsb'_xor]

@[simp] theorem wordByte_xor (a b : Word32) (i : Nat) : wordByte (a ^^^ b) i = wordByte a i ^^^ wordByte b i := by
  simp [wordByte, BitVec.extractLsb'_xor]

@[simp] theorem blockBytesOf_length (b : Block) : (blockBytesOf b).length = 16 := by simp [blockBytesOf]

theorem blockBytesOf_getElem? (b : Block) (i : Nat) (hi : i < 16) : (blockBytesOf b)[i]? = some (byteAt b i) := by
  simp [blockBytesOf, hi]

@[simp] theorem streamBytes_zero (w : AdderWidth) (rk : Schedule) (c : Block) : streamBytes w rk c 0 = [] := rfl

theorem streamBytes_succ (w : AdderWidth) (rk : Schedule) (c : Block) (n : Nat) :
    streamBytes w rk c (n + 1) = streamBytes w rk c n ++ blockBytesOf (outBlock w rk c n) := by
  simp [streamBytes, List.range_succ]

@[simp] theorem streamBytes_length (w : AdderWidth) (rk : Schedule) (c : Block) (n : Nat) :
    (streamBytes w rk c n).length = 16 * n := by
  induction n with
  | zero => rfl
  | succ n ih => rw [streamBytes_succ, List.length_append, ih, blockBytesOf_length]; omega

/-- Byte `16j + i` of the stream is byte `i` of the `j`-th output block (R136, R152). -/
theorem streamBytes_getElem? (w : AdderWidth) (rk : Schedule) (c : Block) (n j i : Nat) (hj : j < n) (hi : i < 16) :
    (streamBytes w rk c n)[16 * j + i]? = some (byteAt (outBlock w rk c j) i) := by
  induction n with
  | zero => omega
  | succ n ih =>
    rw [streamBytes_succ]
    by_cases h : j < n
    · rw [List.getElem?_append_left (by simp; omega), ih h]
    · have : j = n := by omega
      subst this
      rw [List.getElem?_append_right (by simp), streamBytes_length,
        show 16 * j + i - 16 * j = i by omega, blockBytesOf_getElem? _ _ hi]

/-- The stream of `j + k` blocks is that of `j` blocks and then that of `k` more (R133, R152). -/
theorem streamBytes_add (w : AdderWidth) (rk : Schedule) (c : Block) (j k : Nat)
    (hadd : ∀ k, ctrAdd w (ctrAdd w c j) k = ctrAdd w c (j + k)) :
    streamBytes w rk c (j + k) = streamBytes w rk c j ++ streamBytes w rk (ctrAdd w c j) k := by
  induction k with
  | zero => simp
  | succ k ih =>
    rw [← Nat.add_assoc, streamBytes_succ, ih, streamBytes_succ, List.append_assoc, outBlock, outBlock, hadd]

/-- A stream of more blocks begins with the stream of fewer. -/
theorem streamBytes_take (w : AdderWidth) (rk : Schedule) (c : Block) (n j k : Nat) (hn : n ≤ 16 * j) (hjk : j ≤ k) :
    (streamBytes w rk c k).take n = (streamBytes w rk c j).take n := by
  obtain ⟨d, rfl⟩ := Nat.exists_eq_add_of_le hjk
  induction d with
  | zero => rfl
  | succ d ih =>
    rw [← Nat.add_assoc, streamBytes_succ, List.take_append_of_le_length (by simp; omega), ih (by omega)]

theorem le_blockCount (n : Nat) : n ≤ 16 * blockCount n := by simp only [blockCount]; omega

theorem lenOf_toNat (n : Nat) (h : n < 2 ^ 64) : (BitVec.ofNat 64 n).toNat = n := by
  rw [BitVec.toNat_ofNat]; omega

/-- Byte `i` of the seed's key half (R171). -/
theorem byteAt_blockOfBytes (bs : List Byte) (i : Nat) (hi : i < 16) : byteAt (blockOfBytes bs) i = bs.getD i 0#8 :=
  byteAt_ofBytes _ i hi

end Sys2Proof.Machine
end

