-- ==== Sys2Proof/Laws/Counter.lean ====
section
/-! SUPPORT. The counter adder (spec/42_block_encrypt.md R133, R134) for both widths, and the schedule. -/

namespace Sys2Proof.Machine

theorem val_lt (b : Block) : val b < 2 ^ 128 := b.isLt

theorem val_inj {a b : Block} (h : val a = val b) : a = b := BitVec.eq_of_toNat_eq h

@[simp] theorem val_blk (v : Nat) : val (blk v) = v % 2 ^ 128 := BitVec.toNat_ofNat v 128

theorem val_ctrAdd_w128 (c : Block) (k : Nat) : val (ctrAdd .w128 c k) = (val c + k) % 2 ^ 128 := by
  simp [ctrAdd]

theorem val_ctrAdd_w64 (c : Block) (k : Nat) :
    val (ctrAdd .w64 c k) = val c / 2 ^ 64 * 2 ^ 64 + (val c % 2 ^ 64 + k) % 2 ^ 64 := by
  have := val_lt c
  simp only [ctrAdd, val_blk]
  omega

theorem ctrAdd_zero (w : AdderWidth) (c : Block) : ctrAdd w c 0 = c := by
  have := val_lt c
  apply val_inj
  cases w
  · rw [val_ctrAdd_w128]; omega
  · rw [val_ctrAdd_w64]; omega

theorem ctrAdd_add (w : AdderWidth) (c : Block) (j k : Nat) : ctrAdd w (ctrAdd w c j) k = ctrAdd w c (j + k) := by
  have := val_lt c
  apply val_inj
  cases w
  · rw [val_ctrAdd_w128, val_ctrAdd_w128, val_ctrAdd_w128]; omega
  · rw [val_ctrAdd_w64, val_ctrAdd_w64, val_ctrAdd_w64]; omega

/-- The flip of R160 is the addition of `2^127` modulo `2^128`. -/
theorem val_xor_flipBlock (c : Block) : val (c ^^^ flipBlock) = (val c + 2 ^ 127) % 2 ^ 128 := by
  have flip_eq : flipBlock = BitVec.twoPow 128 127 := by decide
  have msb : (BitVec.twoPow 128 127).getLsbD 127 = true := by decide
  have twice : BitVec.twoPow 128 127 + BitVec.twoPow 128 127 = 0#128 := by decide
  have num : (BitVec.twoPow 128 127).toNat = 2 ^ 127 := by decide
  have clear : ∀ d : Block, d.getLsbD 127 = false → d ^^^ BitVec.twoPow 128 127 = d + BitVec.twoPow 128 127 := by
    intro d hd
    have hand : d &&& BitVec.twoPow 128 127 = 0#128 := by
      apply BitVec.eq_of_getLsbD_eq
      intro k hk
      simp only [BitVec.getLsbD_and, BitVec.getLsbD_twoPow, BitVec.getLsbD_zero]
      by_cases hk' : 127 = k
      · subst hk'; rw [hd]; rfl
      · simp [hk']
    rw [BitVec.add_eq_or_of_and_eq_zero _ _ hand]
    apply BitVec.eq_of_getLsbD_eq
    intro k hk
    have := congrArg (fun x => x.getLsbD k) hand
    simp only [BitVec.getLsbD_and, BitVec.getLsbD_or, BitVec.getLsbD_xor, BitVec.getLsbD_zero] at *
    revert this
    cases d.getLsbD k <;> cases (BitVec.twoPow 128 127).getLsbD k <;> simp
  have whole : c ^^^ BitVec.twoPow 128 127 = c + BitVec.twoPow 128 127 := by
    cases hd : c.getLsbD 127
    · exact clear c hd
    · have h := clear (c ^^^ BitVec.twoPow 128 127) (by rw [BitVec.getLsbD_xor, hd, msb]; rfl)
      rw [BitVec.xor_assoc, BitVec.xor_self, BitVec.xor_zero] at h
      rw [← BitVec.add_zero (c ^^^ BitVec.twoPow 128 127), ← twice, ← BitVec.add_assoc, ← h]
  rw [flip_eq, whole, val, BitVec.toNat_add, num]
  rfl

/-- `RK[i]` of an expanded key (R123). -/
theorem keyAt_expand (key : Block) (i : Nat) (hi : i < 11) : keyAt (expand key) i = roundKey key i := by
  simp [keyAt, expand, Vector.getD, hi]

/-- An expanded schedule is the expansion of its own entry 0 (R21). -/
theorem expand_entry_zero (key : Block) : expand (keyAt (expand key) 0) = expand key := by
  rw [keyAt_expand key 0 (by omega)]; rfl

end Sys2Proof.Machine
end

