-- ==== Sys2Proof/Laws/Encoding.lean ====
section
/-! SUPPORT. Naturals as byte strings, least significant first (spec/30_encoding.md R81 to R83), and the three answers of the
decoder, one lemma each. -/

namespace Sys2Proof

@[simp] theorem leBytes_length (n v : Nat) : (leBytes n v).length = n := by
  induction n generalizing v with
  | zero => rfl
  | succ n ih => simp [leBytes, ih]

theorem ofLEBytes_leBytes (n v : Nat) : ofLEBytes (leBytes n v) = v % 256 ^ n := by
  induction n generalizing v with
  | zero => simp [leBytes, ofLEBytes, Nat.mod_one]
  | succ n ih =>
    simp only [leBytes, ofLEBytes, ih, BitVec.toNat_ofNat]
    rw [show 256 ^ (n + 1) = 256 * 256 ^ n from Nat.pow_succ', Nat.mod_mul]

theorem leBytes_ofLEBytes (bs : List Byte) : leBytes bs.length (ofLEBytes bs) = bs := by
  induction bs with
  | nil => rfl
  | cons b bs ih =>
    have hb := b.isLt
    have h1 : (b.toNat + 256 * ofLEBytes bs) / 256 = ofLEBytes bs := by omega
    have h2 : BitVec.ofNat 8 (b.toNat + 256 * ofLEBytes bs) = b := by
      apply BitVec.eq_of_toNat_eq; rw [BitVec.toNat_ofNat]; omega
    simp only [List.length_cons, ofLEBytes, leBytes, h1, h2, ih]

theorem ofLEBytes_lt (bs : List Byte) : ofLEBytes bs < 256 ^ bs.length := by
  induction bs with
  | nil => simp [ofLEBytes]
  | cons b bs ih =>
    have hb := b.isLt
    simp only [ofLEBytes, List.length_cons, Nat.pow_succ]
    omega

theorem leBytes_getElem? (n v a : Nat) (ha : a < n) : (leBytes n v)[a]? = some (BitVec.ofNat 8 (v / 256 ^ a)) := by
  induction n generalizing v a with
  | zero => omega
  | succ n ih =>
    cases a with
    | zero => simp [leBytes]
    | succ a =>
      rw [leBytes, List.getElem?_cons_succ, ih _ _ (by omega), Nat.div_div_eq_div_mul, Nat.pow_succ', Nat.mul_comm]

/-- The decoder on the SEED opcode (R82, R84). -/
theorem decode_seed (rest : List Byte) :
    decode (opSeed :: rest) =
      if 32 ≤ rest.length then .command (.seed (seedOfBytes (rest.take 32))) (rest.drop 32) else .incomplete := by
  simp [decode]

/-- The decoder on the FILL opcode (R83, R84). -/
theorem decode_fill (rest : List Byte) :
    decode (opFill :: rest) =
      if 8 ≤ rest.length then .command (.fill (ofLEBytes (rest.take 8))) (rest.drop 8) else .incomplete := by
  simp [decode, opFill, opSeed]

/-- The decoder on a reserved opcode (R84, R86). -/
theorem decode_reserved (op : Byte) (rest : List Byte) (h1 : op ≠ opSeed) (h2 : op ≠ opFill) :
    decode (op :: rest) = .illegal op rest := by
  simp [decode, h1, h2]

/-- A decoded FILL has a length the encoding can hold (R83). -/
theorem decode_fill_lt {bs rest : List Byte} {n : Nat} (h : decode bs = .command (.fill n) rest) : n < 2 ^ 64 := by
  cases bs with
  | nil => simp [decode] at h
  | cons op bs =>
    simp only [decode] at h
    split at h
    · split at h <;> simp at h
    · split at h
      · split at h
        · simp only [Decoded.command.injEq, Instr.fill.injEq] at h
          have := ofLEBytes_lt (bs.take 8)
          rw [List.length_take, Nat.min_eq_left ‹_›] at this
          omega
        · simp at h
      · simp at h

end Sys2Proof
end

