-- ==== Sys2Proof/Laws/Memory.lean ====
section
/-! SUPPORT. The output space (spec/20_memory.md R53 to R55): read after write, frames, the canonical form, and what writing a run of bytes
to ascending offsets leaves. -/

namespace Sys2Proof.Machine

@[simp] theorem Memory.read_nil (a : Nat) : Memory.read [] a = none := rfl

@[simp] theorem Memory.writeBytes_nil (m : Memory) (a : Nat) : m.writeBytes a [] = m := rfl

theorem Memory.read_write_same (m : Memory) (a : Nat) (b : Byte) : (m.write a b).read a = some b := by
  induction m with
  | nil => simp [Memory.write, Memory.read]
  | cons kv rest ih =>
    obtain ⟨k, v⟩ := kv
    simp only [Memory.write]
    split
    · simp [Memory.read]
    · split
      · simp [Memory.read]
      · simp_all [Memory.read]

theorem Memory.read_write_other (m : Memory) (a x : Nat) (b : Byte) (h : x ≠ a) :
    (m.write a b).read x = m.read x := by
  induction m with
  | nil => simp [Memory.write, Memory.read, h]
  | cons kv rest ih =>
    obtain ⟨k, v⟩ := kv
    simp only [Memory.write]
    split
    · simp [Memory.read, h]
    · split
      · subst_vars; simp [Memory.read, h]
      · simp [Memory.read, ih]

theorem Memory.read_write (m : Memory) (a x : Nat) (b : Byte) :
    (m.write a b).read x = if x = a then some b else m.read x := by
  split
  · subst_vars; exact m.read_write_same x b
  · exact m.read_write_other a x b ‹_›

/-- A run of bytes reads back, and every offset outside it reads as before. -/
theorem Memory.read_writeBytes (m : Memory) (a x : Nat) (bs : List Byte) :
    (m.writeBytes a bs).read x = if a ≤ x ∧ x < a + bs.length then bs[x - a]? else m.read x := by
  induction bs generalizing m a with
  | nil => simp [Memory.writeBytes]
  | cons b bs ih =>
    rw [Memory.writeBytes, ih, Memory.read_write]
    by_cases hx : x = a
    · subst hx; simp
    · by_cases hr : a + 1 ≤ x ∧ x < a + 1 + bs.length
      · have : x - a = (x - (a + 1)) + 1 := by omega
        rw [if_pos hr, if_pos (by rw [List.length_cons]; omega), this, List.getElem?_cons_succ]
      · rw [if_neg hr, if_neg hx, if_neg (by rw [List.length_cons]; omega)]

theorem Memory.writeBytes_append (m : Memory) (a : Nat) (xs ys : List Byte) :
    m.writeBytes a (xs ++ ys) = (m.writeBytes a xs).writeBytes (a + xs.length) ys := by
  induction xs generalizing m a with
  | nil => simp
  | cons x xs ih => simp [Memory.writeBytes, ih, Nat.add_assoc, Nat.add_comm 1]

/-- The offsets of a memory after a write depend on its offsets alone, not on any byte. -/
theorem Memory.offsets_write (m₁ m₂ : Memory) (a : Nat) (b₁ b₂ : Byte) (h : m₁.map Prod.fst = m₂.map Prod.fst) :
    (m₁.write a b₁).map Prod.fst = (m₂.write a b₂).map Prod.fst := by
  induction m₁ generalizing m₂ with
  | nil => cases m₂ <;> simp_all [Memory.write]
  | cons kv rest ih =>
    obtain ⟨k, v⟩ := kv
    cases m₂ with
    | nil => simp at h
    | cons kv₂ rest₂ =>
      obtain ⟨k₂, v₂⟩ := kv₂
      simp only [List.map_cons, List.cons.injEq] at h
      obtain ⟨rfl, h⟩ := h
      simp only [Memory.write]
      split
      · simp [h]
      · split
        · simp [h]
        · simp [ih rest₂ h]

theorem Memory.offsets_writeBytes (m₁ m₂ : Memory) (a : Nat) (bs₁ bs₂ : List Byte)
    (h : m₁.map Prod.fst = m₂.map Prod.fst) (hl : bs₁.length = bs₂.length) :
    (m₁.writeBytes a bs₁).map Prod.fst = (m₂.writeBytes a bs₂).map Prod.fst := by
  induction bs₁ generalizing m₁ m₂ a bs₂ with
  | nil => cases bs₂ <;> simp_all
  | cons b bs ih =>
    cases bs₂ with
    | nil => simp at hl
    | cons b₂ bs₂ =>
      exact ih _ _ _ _ (Memory.offsets_write m₁ m₂ a b b₂ h) (by simpa using hl)

/-- Every entry's offset is at least `x`, or the entry is the one just written. -/
theorem Memory.write_bound (m : Memory) (a x : Nat) (b : Byte) (ha : x < a) (h : ∀ k ∈ m.map Prod.fst, x < k) :
    ∀ k ∈ (m.write a b).map Prod.fst, x < k := by
  induction m with
  | nil => simpa [Memory.write] using ha
  | cons kv rest ih =>
    obtain ⟨k, v⟩ := kv
    have hr := ih fun j hj => h j (List.mem_cons_of_mem _ hj)
    have hk : x < k := h k (by simp)
    simp only [Memory.write]
    split
    · simp only [List.map_cons, List.mem_cons]; rintro j (rfl | rfl | hj)
      · exact ha
      · exact hk
      · exact h j (List.mem_cons_of_mem _ hj)
    · split
      · simp only [List.map_cons, List.mem_cons]; rintro j (rfl | hj)
        · exact ha
        · exact h j (List.mem_cons_of_mem _ hj)
      · simp only [List.map_cons, List.mem_cons]; rintro j (rfl | hj)
        · exact hk
        · exact hr j hj

/-- A write keeps the canonical form. -/
theorem Memory.write_wf (m : Memory) (a : Nat) (b : Byte) (h : m.wf) : (m.write a b).wf := by
  induction m with
  | nil => simp [Memory.write, Memory.wf]
  | cons kv rest ih =>
    obtain ⟨k, v⟩ := kv
    obtain ⟨hk, hr⟩ := List.pairwise_cons.1 (show (k :: rest.map Prod.fst).Pairwise (· < ·) from h)
    simp only [Memory.write]
    split
    · refine List.pairwise_cons.2 ⟨?_, h⟩
      simp only [List.map_cons, List.mem_cons]; rintro j (rfl | hj)
      · assumption
      · exact lt_trans ‹_› (hk j hj)
    · split
      · subst_vars; exact List.pairwise_cons.2 ⟨hk, hr⟩
      · exact List.pairwise_cons.2 ⟨Memory.write_bound rest a k b (by omega) hk, ih hr⟩

theorem Memory.writeBytes_wf (m : Memory) (a : Nat) (bs : List Byte) (h : m.wf) : (m.writeBytes a bs).wf := by
  induction bs generalizing m a with
  | nil => exact h
  | cons b bs ih => exact ih _ _ (Memory.write_wf m a b h)

theorem reset_memory_wf : State.reset.out.cells.wf := List.Pairwise.nil

/-- A write above every listed offset is one more entry at the end. -/
theorem Memory.write_above (m : Memory) (a : Nat) (b : Byte) (h : ∀ k ∈ m.map Prod.fst, k < a) :
    m.write a b = m ++ [(a, b)] := by
  induction m with
  | nil => rfl
  | cons kv rest ih =>
    obtain ⟨k, v⟩ := kv
    have hk : k < a := h k (by simp)
    have hr := ih fun j hj => h j (List.mem_cons_of_mem _ hj)
    simp [Memory.write, hr, show ¬ a < k by omega, show a ≠ k by omega]

/-- Bytes appended to a memory that lists just the offsets below its length: the offsets stay a range. -/
theorem Memory.writeBytes_range (m : Memory) (bs : List Byte) (h : m.map Prod.fst = List.range m.length) :
    (m.writeBytes m.length bs).map Prod.fst = List.range (m.length + bs.length) ∧
    (m.writeBytes m.length bs).length = m.length + bs.length := by
  induction bs generalizing m with
  | nil => simpa using h
  | cons b bs ih =>
    have hw := Memory.write_above m m.length b (by rw [h]; simp)
    have hl : (m.write m.length b).length = m.length + 1 := by rw [hw]; simp
    have := ih (m.write m.length b) (by rw [hw]; simp [h, List.range_succ])
    rw [hl] at this
    simp only [Memory.writeBytes, List.length_cons]
    rw [show m.length + (bs.length + 1) = m.length + 1 + bs.length by omega]
    exact this

@[simp] theorem OutSpace.fresh_len (n : Nat) : (OutSpace.fresh n).len = n := rfl
@[simp] theorem OutSpace.fresh_cells (n : Nat) : (OutSpace.fresh n).cells = [] := rfl
@[simp] theorem OutSpace.fresh_read (n a : Nat) : (OutSpace.fresh n).read a = none := rfl
@[simp] theorem OutSpace.write_len (o : OutSpace) (a : Nat) (bs : List Byte) : (o.write a bs).len = o.len := rfl
@[simp] theorem OutSpace.write_cells (o : OutSpace) (a : Nat) (bs : List Byte) :
    (o.write a bs).cells = o.cells.writeBytes a bs := rfl
@[simp] theorem OutSpace.write_nil (o : OutSpace) (a : Nat) : o.write a [] = o := rfl

/-- `MemWrite` (R55): byte `k` of the run at offset `a + k`, every other offset as before. -/
theorem OutSpace.read_write (o : OutSpace) (a x : Nat) (bs : List Byte) :
    (o.write a bs).read x = if a ≤ x ∧ x < a + bs.length then bs[x - a]? else o.read x :=
  Memory.read_writeBytes o.cells a x bs

/-- Two `MemWrite`s that follow one another are one. -/
theorem OutSpace.write_write (o : OutSpace) (a : Nat) (xs ys : List Byte) :
    (o.write a xs).write (a + xs.length) ys = o.write a (xs ++ ys) := by
  simp [OutSpace.write, Memory.writeBytes_append]

end Sys2Proof.Machine
end

