-- ==== Sys2Proof/Laws/Steps.lean ====
section
/-! SUPPORT. What each meaning, each micro-step and a step can do, said once (one inversion lemma each). -/

namespace Sys2Proof.Machine

open Sys2Proof

/-- The host takes at most what is offered. -/
theorem Pace.takes_le (p : Pace) (n : Nat) : p.takes n ≤ n := by
  cases p <;> simp [Pace.takes]

theorem Pace.takes_add {p : Pace} {a b : Nat} (h : p.takes (a + b) = a + b) :
    p.takes a = a ∧ (p.after a).takes b = b := by
  cases p with
  | prompt => simp [Pace.takes, Pace.after]
  | paced r => simp only [Pace.takes, Pace.after] at *; omega

theorem Pace.after_add (p : Pace) (a b : Nat) : (p.after a).after b = p.after (a + b) := by
  cases p with
  | prompt => rfl
  | paced r => simp only [Pace.after, Pace.paced.injEq]; omega

@[simp] theorem Pace.after_zero (p : Pace) : p.after 0 = p := by cases p <;> rfl

/-- What each answer of `select` says of the length that remains (R142, R149). -/
theorem select_cases (c : Config) (r : Nat) :
    (select c r = .f8 ∧ 128 < r) ∨ (select c r = .f2 ∧ 32 < r) ∨ (select c r = .f1 ∧ 16 < r) ∨
    (select c r = .tail ∧ 0 < r ∧ r ≤ 16) ∨ (select c r = .rkenc ∧ r = 0) := by
  unfold select
  split <;> split_ifs <;> simp <;> omega

/-- In an output phase that is `select`'s (R142) there are bytes to write, not more than the blocks hold, and they are
either whole blocks with some of `REM` left, or all of `REM` in one last block. -/
theorem outputCount_shape {c : Config} {s : State} (h : s.phase = select c s.rem.toNat)
    (ho : s.phase.isOutput = true) :
    0 < s.outputCount ∧ s.outputCount ≤ 16 * outputBlocks s.phase ∧
    (s.outputCount = 16 * outputBlocks s.phase ∧ s.outputCount < s.rem.toNat ∨
      s.outputCount = s.rem.toNat ∧ outputBlocks s.phase = 1) := by
  rcases select_cases c s.rem.toNat with ⟨hq, hr⟩ | ⟨hq, hr⟩ | ⟨hq, hr⟩ | ⟨hq, hr⟩ | ⟨hq, hr⟩ <;> rw [hq] at h
  · simp [State.outputCount, outputBlocks, h, hr]
  · simp [State.outputCount, outputBlocks, h, hr]
  · simp [State.outputCount, outputBlocks, h, hr]
  · simp [State.outputCount, outputBlocks, h, hr]
  · simp [h, Phase.isOutput] at ho

theorem select_isOutput (c : Config) (r : Nat) (h : 0 < r) : (select c r).isOutput = true := by
  rcases select_cases c r with ⟨hq, hr⟩ | ⟨hq, hr⟩ | ⟨hq, hr⟩ | ⟨hq, hr⟩ | ⟨hq, hr⟩ <;> rw [hq] <;>
    first | rfl | omega

@[simp] theorem select_zero (c : Config) : select c 0 = .rkenc := by
  unfold select
  split <;> rfl

/-- While the phase is `select`'s, the micro-step's bytes are as many as `outputCount` says. -/
theorem outputBytes_length {c : Config} {s : State} (h : s.phase = select c s.rem.toNat)
    (ho : s.phase.isOutput = true) : (s.outputBytes c).length = s.outputCount := by
  have := (outputCount_shape h ho).2.1
  simp only [State.outputBytes, List.length_take, streamBytes_length]
  omega

/-- Everything SEED's meaning can do. -/
theorem execSeed_cases {x : Seed} {s t : State} (h : execSeed x s = .next t) :
    (s.ready = false ∧ t = s) ∨ (s.ready = true ∧ s.pace = .prompt ∧ t = seedCommand x s) ∨
    (s.ready = true ∧ (∃ r, s.pace = .paced r) ∧ t = acceptSeed x s) := by
  unfold execSeed at h
  split at h
  · split at h <;> simp_all
  · simp_all

/-- Everything FILL's meaning can do. -/
theorem execFill_cases {n : Nat} {s t : State} (h : execFill n s = .next t) :
    (s.ready = false ∧ t = s) ∨ (s.ready = true ∧ s.seeded = false ∧ t = raiseFault .notSeeded s) ∨
    (s.ready = true ∧ s.seeded = true ∧ s.pace = .prompt ∧ t = fillCommand Config.core n s) ∨
    (s.ready = true ∧ s.seeded = true ∧ (∃ r, s.pace = .paced r) ∧ t = acceptFill Config.core n s) := by
  unfold execFill at h
  split at h
  · split at h
    · split at h <;> simp_all
    · simp_all
  · simp_all

/-- Neither meaning ever stops. -/
theorem exec_next (i : Instr) (s : State) : ∃ t, exec i s = .next t := by
  cases i with
  | seed x => simp only [exec, execSeed]; split <;> [split; skip] <;> exact ⟨_, rfl⟩
  | fill n => simp only [exec, execFill]; split <;> [split <;> [split; skip]; skip] <;> exact ⟨_, rfl⟩

theorem ready_iff (s : State) : s.ready = true ↔ s.phase = .idle ∧ s.fault = false := by
  simp [State.ready, State.cmdReady]

/-- Everything an output micro-step can do when it has a next state. -/
theorem outputStep_cases {c : Config} {s t : State} (h : outputStep c s = .next t) :
    s.phase = select c s.rem.toNat ∧ s.off.toNat + s.sent + s.took ≤ s.out.len ∧
    (s.outputCount ≤ s.sent + s.took ∧ t = commitOutput c (takeOutput c s) ∨
      s.sent + s.took < s.outputCount ∧ t = takeOutput c s) := by
  unfold outputStep at h
  split at h
  · split at h
    · rename_i h1 h2
      refine ⟨h1, by simpa [OutSpace.admits] using h2, ?_⟩
      split at h <;> simp_all
    · simp at h
  · simp at h

/-- An output micro-step is enabled where its phase is `select`'s and its bytes lie in the space. -/
theorem outputStep_eq {c : Config} {s : State} (h : s.phase = select c s.rem.toNat)
    (ha : s.off.toNat + s.sent + s.took ≤ s.out.len) :
    outputStep c s =
      if s.outputCount ≤ s.sent + s.took then .next (commitOutput c (takeOutput c s)) else .next (takeOutput c s) := by
  unfold outputStep
  rw [if_pos h, if_pos (by simpa [OutSpace.admits] using ha)]

/-- In an output phase a micro-step is an output micro-step. -/
theorem microStep_output (c : Config) {s : State} (h : s.phase.isOutput = true) : microStep c s = outputStep c s := by
  unfold microStep
  generalize hp : s.phase = p at h
  cases p <;> simp_all [Phase.isOutput]

/-- Everything a micro-step can do when it has a next state. -/
theorem microStep_cases {c : Config} {s t : State} (h : microStep c s = .next t) :
    (s.phase = .idle ∧ t = s) ∨ (s.phase.isOutput = true ∧ outputStep c s = .next t) ∨
    (s.phase = .rkenc ∧ s.rem = 0#64 ∧ t = rkencWrites s) ∨
    (s.phase = .rkexp ∧ t = rkexpStep s) ∨ (s.phase = .swap ∧ t = swapStep s) ∨
    (s.phase = .sdexp ∧ t = sdexpStep s) ∨ (s.phase = .sdcommit ∧ t = sdcommitStep s) := by
  unfold microStep at h
  split at h <;> simp_all [Phase.isOutput, rkencStep]
  split at h <;> simp_all

/-- Everything the fetch can do. -/
theorem fetch_cases (s : State) :
    (∃ i rest, fetch s = .run i { s with latch := [], cmd := rest } ∧ s.ready = true ∧
      decode (s.latch ++ s.cmd) = .command i rest) ∨
    (∃ op rest, fetch s = .reserved { s with latch := [], cmd := rest } ∧ s.ready = true ∧
      decode (s.latch ++ s.cmd) = .illegal op rest) ∨
    (fetch s = .wait { s with latch := s.latch ++ s.cmd, cmd := [] } ∧ s.ready = true ∧
      decode (s.latch ++ s.cmd) = .incomplete) ∨
    (fetch s = .wait s ∧ s.ready = false) := by
  unfold fetch State.ready
  cases hr : s.cmdReady
  · simp
  · cases hd : decode (s.latch ++ s.cmd) <;> simp

/-- Everything a step can do when it has a next state. -/
theorem step_cases {s t : State} (h : step s = .next t) :
    (s.rst = true ∧ t = takeReset s) ∨
    (s.rst = false ∧ s.phase = .idle ∧ s.ready = false ∧ t = s) ∨
    (s.rst = false ∧ s.ready = true ∧ ∃ i rest, decode (s.latch ++ s.cmd) = .command i rest ∧
      exec i { s with latch := [], cmd := rest } = .next t) ∨
    (s.rst = false ∧ s.ready = true ∧ ∃ op rest, decode (s.latch ++ s.cmd) = .illegal op rest ∧
      t = raiseFault .illegalCommand { s with latch := [], cmd := rest }) ∨
    (s.rst = false ∧ s.ready = true ∧ decode (s.latch ++ s.cmd) = .incomplete ∧
      t = { s with latch := s.latch ++ s.cmd, cmd := [] }) ∨
    (s.rst = false ∧ s.phase ≠ .idle ∧ microStep Config.core s = .next t) := by
  unfold step at h
  split at h
  · simp_all
  · rename_i hr
    rw [Bool.not_eq_true] at hr
    by_cases hp : s.phase = .idle
    · rw [hp] at h
      rcases fetch_cases s with ⟨i, rest, hf, hy, hd⟩ | ⟨op, rest, hf, hy, hd⟩ | ⟨hf, hy, hd⟩ | ⟨hf, hy⟩
      · rw [hf] at h; exact .inr (.inr (.inl ⟨hr, hy, i, rest, hd, h⟩))
      · rw [hf] at h; simp at h; exact .inr (.inr (.inr (.inl ⟨hr, hy, op, rest, hd, h.symm⟩)))
      · rw [hf] at h; simp at h; exact .inr (.inr (.inr (.inr (.inl ⟨hr, hy, hd, h.symm⟩))))
      · rw [hf] at h; simp at h; exact .inr (.inl ⟨hr, hp, hy, h.symm⟩)
    · refine .inr (.inr (.inr (.inr (.inr ⟨hr, hp, ?_⟩))))
      split at h <;> simp_all

/-- With a command under way and no reset, a step is a micro-step. -/
theorem step_micro {s : State} (hr : s.rst = false) (hp : s.phase ≠ .idle) : step s = microStep Config.core s := by
  unfold step
  rw [hr]
  generalize hq : s.phase = p at hp
  cases p <;> simp_all

/-- Micro-steps in a row, cut in two. -/
theorem microRun_add (c : Config) (a b : Nat) {s t : State} (h : microRun c a s = .next t) :
    microRun c (a + b) s = microRun c b t := by
  induction a generalizing s with
  | zero => simp [microRun] at h; simp [h]
  | succ a ih =>
    rw [Nat.succ_add]
    simp only [microRun] at *
    cases hs : microStep c s <;> simp_all

end Sys2Proof.Machine
end

