-- ==== Sys2Proof/Laws/Progress.lean ====
section
/-! SUPPORT. Where a FILL under way may stand (the invariant of spec/43_fill.md R152, with the bytes the host has taken of the
micro-step under way), and that micro-steps keep it, for every adder width and lane count. -/

namespace Sys2Proof.Machine

open Sys2Proof

/-- The first `k` bytes of a FILL of `n` bytes from `s`, stored. -/
def fillPrefix (c : Config) (n k : Nat) (s : State) : OutSpace :=
  (OutSpace.fresh n).write 0 ((streamBytes c.ctrIncWidth s.rk s.ctr (blockCount n)).take k)

/-- What a FILL under way does not touch, whatever its phase. -/
def SameAround (s t : State) : Prop :=
  t.seeded = s.seeded ∧ t.fault = s.fault ∧ t.fcode = s.fcode ∧ t.rst = s.rst ∧ t.cmd = s.cmd ∧ t.latch = s.latch

/-- The output phase: `j` blocks are done and the counter stands there; the bytes below `16j`, and those of the
micro-step that the host has taken, are stored (R152). -/
def OutputProgress (c : Config) (n : Nat) (s t : State) : Prop :=
  t.phase = select c t.rem.toNat ∧ t.sent < t.outputCount ∧ t.rk = s.rk ∧
  ∃ j, t.off.toNat = 16 * j ∧ 16 * j + t.rem.toNat = n ∧ t.ctr = ctrAdd c.ctrIncWidth s.ctr j ∧
    t.out = fillPrefix c n (16 * j + t.sent) s

/-- The output is done: the rekey phases. -/
def OutputDone (c : Config) (n : Nat) (s t : State) : Prop :=
  t.rk = s.rk ∧ t.ctr = ctrAdd c.ctrIncWidth s.ctr (blockCount n) ∧ t.rem = 0#64 ∧ t.off = lenOf n ∧ t.sent = 0 ∧
  t.out = fillPrefix c n n s

/-- `t` is a state in which a FILL of `n` bytes, accepted in `s`, may stand. -/
def FillProgress (c : Config) (n : Nat) (s t : State) : Prop :=
  SameAround s t ∧
  match t.phase with
  | .f8 | .f2 | .f1 | .tail => OutputProgress c n s t
  | .rkenc => OutputDone c n s t
  | .rkexp => OutputDone c n s t ∧ t.kb = keyBlock t.rk t.ctr
  | .swap => OutputDone c n s t ∧ t.nrk = rekey t.rk t.ctr
  | .idle => t = { fillCommand c n s with pace := t.pace }
  | .sdexp | .sdcommit | .halt => False

theorem fillPrefix_zero (c : Config) (n : Nat) (s : State) : fillPrefix c n 0 s = OutSpace.fresh n := by
  simp [fillPrefix]

@[simp] theorem fillPrefix_len (c : Config) (n k : Nat) (s : State) : (fillPrefix c n k s).len = n := rfl

theorem fillProgress_output {c : Config} {n : Nat} {s t : State} (ho : t.phase.isOutput = true) :
    FillProgress c n s t ↔ SameAround s t ∧ OutputProgress c n s t := by
  unfold FillProgress
  generalize hp : t.phase = p at ho
  cases p <;> simp_all [Phase.isOutput]

theorem fillProgress_rkenc {c : Config} {n : Nat} {s t : State} (hp : t.phase = .rkenc) :
    FillProgress c n s t ↔ SameAround s t ∧ OutputDone c n s t := by
  unfold FillProgress
  rw [hp]

/-- Acceptance starts a FILL (R142). -/
theorem fillProgress_accept (c : Config) (n : Nat) (s : State) (hn : n < 2 ^ 64) :
    FillProgress c n s (acceptFill c n s) := by
  have hl : (lenOf n).toNat = n := lenOf_toNat n hn
  have around : SameAround s (acceptFill c n s) := by simp [SameAround]
  by_cases h0 : n = 0
  · subst h0
    rw [fillProgress_rkenc (by simp)]
    refine ⟨around, ?_⟩
    simp [OutputDone, blockCount, ctrAdd_zero, fillPrefix_zero, lenOf]
  · have ho : (acceptFill c n s).phase.isOutput = true := by
      rw [acceptFill_phase]; exact select_isOutput c n (by omega)
    rw [fillProgress_output ho]
    have hsel : (acceptFill c n s).phase = select c (acceptFill c n s).rem.toNat := by simp [hl]
    refine ⟨around, hsel, ?_, by simp, 0, by simp, by simp [hl], by simp [ctrAdd_zero], by simp [fillPrefix_zero]⟩
    simpa using (outputCount_shape hsel ho).1

/-- The bytes of the micro-step under way are the stream's next ones (R133, R152). -/
theorem outputBytes_eq_stream {c : Config} {n j : Nat} {s t : State} (hsel : t.phase = select c t.rem.toNat)
    (ho : t.phase.isOutput = true) (hrk : t.rk = s.rk) (hctr : t.ctr = ctrAdd c.ctrIncWidth s.ctr j)
    (hlen : 16 * j + t.rem.toNat = n) :
    (streamBytes c.ctrIncWidth s.rk s.ctr (blockCount n)).take (16 * j + t.outputCount) =
      streamBytes c.ctrIncWidth s.rk s.ctr j ++ t.outputBytes c := by
  obtain ⟨_, hle, hshape⟩ := outputCount_shape hsel ho
  have hb : j + outputBlocks t.phase ≤ blockCount n := by
    simp only [blockCount]
    rcases hshape with ⟨h1, h2⟩ | ⟨h1, h2⟩ <;> omega
  rw [streamBytes_take _ _ _ _ (j + outputBlocks t.phase) _ (by omega) hb,
    streamBytes_add _ _ _ _ _ (ctrAdd_add _ _ _), List.take_append, streamBytes_length]
  simp only [State.outputBytes, hrk, hctr]
  rw [List.take_of_length_le (by simp), show 16 * j + t.outputCount - 16 * j = t.outputCount by omega]

/-- Taking bytes of the micro-step under way extends the stored prefix by as many. -/
theorem takeOutput_prefix {c : Config} {n j : Nat} {s t : State} (hsel : t.phase = select c t.rem.toNat)
    (ho : t.phase.isOutput = true) (hrk : t.rk = s.rk) (hctr : t.ctr = ctrAdd c.ctrIncWidth s.ctr j)
    (hlen : 16 * j + t.rem.toNat = n) (hoff : t.off.toNat = 16 * j) (hsent : t.sent ≤ t.outputCount)
    (hout : t.out = fillPrefix c n (16 * j + t.sent) s) :
    (takeOutput c t).out = fillPrefix c n (16 * j + (t.sent + t.took)) s := by
  have htook : t.took ≤ t.outputCount - t.sent := Pace.takes_le _ _
  have hst := outputBytes_eq_stream hsel ho hrk hctr hlen
  have hbl := outputBytes_length hsel ho
  have cut : ∀ k, k ≤ t.outputCount →
      (streamBytes c.ctrIncWidth s.rk s.ctr (blockCount n)).take (16 * j + k) =
        streamBytes c.ctrIncWidth s.rk s.ctr j ++ (t.outputBytes c).take k := by
    intro k hk
    have := congrArg (List.take (16 * j + k)) hst
    rw [List.take_take, Nat.min_eq_left (by omega), List.take_append, streamBytes_length,
      show 16 * j + k - 16 * j = k by omega] at this
    rw [this, List.take_of_length_le (by simp)]
  rw [takeOutput_out, hout, fillPrefix, fillPrefix, cut _ hsent, cut _ (by omega), hoff]
  have hl : (streamBytes c.ctrIncWidth s.rk s.ctr j ++ (t.outputBytes c).take t.sent).length = 16 * j + t.sent := by
    simp [hbl, hsent]
  have := OutSpace.write_write (OutSpace.fresh n) 0
    (streamBytes c.ctrIncWidth s.rk s.ctr j ++ (t.outputBytes c).take t.sent)
    (((t.outputBytes c).drop t.sent).take t.took)
  rw [hl, Nat.zero_add] at this
  rw [this, List.append_assoc]
  congr 2
  rw [List.take_add]

/-- One micro-step of a FILL under way: there is one, and the FILL still stands where it may (R152, R154). -/
theorem fillProgress_microStep {c : Config} {n : Nat} {s t : State} (hn : n < 2 ^ 64) (hs : s.phase = .idle)
    (h : FillProgress c n s t) : ∃ u, microStep c t = .next u ∧ FillProgress c n s u := by
  obtain ⟨around, hcase⟩ := id h
  by_cases ho : t.phase.isOutput = true
  · obtain ⟨_, hsel, hsent, hrk, j, hoff, hlen, hctr, hout⟩ := (fillProgress_output ho).1 h
    have htook : t.took ≤ t.outputCount - t.sent := Pace.takes_le _ _
    obtain ⟨hpos, hle, hshape⟩ := outputCount_shape hsel ho
    have hspace : t.off.toNat + t.sent + t.took ≤ t.out.len := by
      rw [hout, fillPrefix_len]
      rcases hshape with ⟨h1, h2⟩ | ⟨h1, h2⟩ <;> omega
    have hout' := takeOutput_prefix hsel ho hrk hctr hlen hoff (by omega) hout
    rw [microStep_output c ho, outputStep_eq hsel hspace]
    split
    · rename_i hall
      refine ⟨_, rfl, ?_⟩
      have hall' : t.sent + t.took = t.outputCount := by omega
      rw [hall'] at hout'
      have hrem := t.rem.isLt
      have hcnt : (BitVec.ofNat 64 t.outputCount).toNat = t.outputCount :=
        lenOf_toNat _ (by rcases hshape with ⟨h1, h2⟩ | ⟨h1, h2⟩ <;> omega)
      have hleft : (t.rem - BitVec.ofNat 64 t.outputCount).toNat = t.rem.toNat - t.outputCount := by
        rw [BitVec.toNat_sub_of_le (by rw [BitVec.le_def, hcnt]; rcases hshape with ⟨h1, h2⟩ | ⟨h1, h2⟩ <;> omega),
          hcnt]
      have hphase : (commitOutput c (takeOutput c t)).phase = select c (t.rem.toNat - t.outputCount) := by
        rw [← hleft]; rfl
      have haround : SameAround s (commitOutput c (takeOutput c t)) := by simpa [SameAround] using around
      have hcount : (takeOutput c t).outputCount = t.outputCount := rfl
      rcases hshape with ⟨h1, h2⟩ | ⟨h1, h2⟩
      · have ho' : (commitOutput c (takeOutput c t)).phase.isOutput = true := by
          rw [hphase]; exact select_isOutput c _ (by omega)
        rw [fillProgress_output ho']
        have hsel' : (commitOutput c (takeOutput c t)).phase = select c (commitOutput c (takeOutput c t)).rem.toNat := rfl
        have hoff' : (t.off + BitVec.ofNat 64 t.outputCount).toNat = 16 * (j + outputBlocks t.phase) := by
          rw [BitVec.toNat_add, hcnt, hoff]; omega
        refine ⟨haround, hsel', (outputCount_shape hsel' ho').1, hrk, j + outputBlocks t.phase, hoff', ?_, ?_, ?_⟩
        · rw [commitOutput_rem, takeOutput_rem, hcount, hleft]; omega
        · simp [hctr, ctrAdd_add]
        · rw [commitOutput_out, hout', commitOutput_sent, h1]; congr 1; omega
      · have hp' : (commitOutput c (takeOutput c t)).phase = .rkenc := by rw [hphase, h1, Nat.sub_self, select_zero]
        rw [fillProgress_rkenc hp']
        have hj : j + 1 = blockCount n := by simp only [blockCount]; omega
        refine ⟨haround, hrk, ?_, ?_, ?_, rfl, ?_⟩
        · rw [commitOutput_ctr, takeOutput_ctr, takeOutput_phase, hctr, h2, ctrAdd_add, hj]
        · apply BitVec.eq_of_toNat_eq
          rw [commitOutput_rem, takeOutput_rem, hcount, hleft, h1]; simp
        · apply BitVec.eq_of_toNat_eq
          rw [commitOutput_off, takeOutput_off, hcount, BitVec.toNat_add, hcnt, hoff, lenOf, lenOf_toNat n hn]; omega
        · rw [commitOutput_out, hout', h1, hlen]
    · rename_i hmore
      have ho' : (takeOutput c t).phase.isOutput = true := ho
      refine ⟨_, rfl, (fillProgress_output ho').2 ⟨by simpa [SameAround] using around, hsel, ?_, hrk, j, hoff, hlen,
        hctr, hout'⟩⟩
      show t.sent + t.took < t.outputCount
      omega
  · generalize hp : t.phase = p at hcase ho
    cases p <;> simp [Phase.isOutput] at ho <;> simp only at hcase
    · exact ⟨t, by simp [microStep, hp], h⟩
    · obtain ⟨hrk, hctr, hrem, hoff, hsent, hout⟩ := hcase
      refine ⟨rkencWrites t, by simp [microStep, hp, rkencStep, hrem], around, ?_⟩
      exact ⟨⟨hrk, hctr, hrem, hoff, hsent, hout⟩, rfl⟩
    · obtain ⟨hd, hkb⟩ := hcase
      refine ⟨rkexpStep t, by simp [microStep, hp], around, ?_⟩
      exact ⟨hd, by simp [hkb, rekey]⟩
    · obtain ⟨⟨hrk, hctr, hrem, hoff, hsent, hout⟩, hnrk⟩ := hcase
      refine ⟨swapStep t, by simp [microStep, hp], around, ?_⟩
      obtain ⟨h1, h2, h3, h4, h5, h6⟩ := around
      show swapStep t = { fillCommand c n s with pace := (swapStep t).pace }
      apply State.ext_fields <;> simp_all [fillPrefix]

/-- Any number of micro-steps of a FILL under way. -/
theorem fillProgress_microRun {c : Config} {n : Nat} {s t : State} (hn : n < 2 ^ 64) (hs : s.phase = .idle)
    (h : FillProgress c n s t) (m : Nat) : ∃ u, microRun c m t = .next u ∧ FillProgress c n s u := by
  induction m generalizing t with
  | zero => exact ⟨t, rfl, h⟩
  | succ m ih =>
    obtain ⟨u, hu, hp⟩ := fillProgress_microStep hn hs h
    obtain ⟨v, hv, hq⟩ := ih hp
    exact ⟨v, by simp [microRun, hu, hv], hq⟩

/-- A stored prefix of the output reads as the command step's output does, and nothing beyond it is written. -/
theorem fillPrefix_read (c : Config) (n k : Nat) (s : State) (hk : k ≤ n) (a : Nat) :
    (fillPrefix c n k s).read a = if a < k then (fillCommand c n s).out.read a else none := by
  have := le_blockCount n
  rw [fillPrefix, fillCommand_out, OutSpace.read_write, OutSpace.read_write]
  simp only [List.length_take, streamBytes_length, Nat.zero_le, true_and, Nat.zero_add, Nat.sub_zero,
    OutSpace.fresh_read]
  rw [Nat.min_eq_left (by omega), Nat.min_eq_left this]
  split
  · rw [if_pos (by omega), List.getElem?_take_of_lt ‹_›, List.getElem?_take_of_lt (by omega)]
  · rfl

/-- Wherever a FILL stands, what is stored is a prefix of its output (R203). -/
theorem fillProgress_out {c : Config} {n : Nat} {s t : State} (h : FillProgress c n s t) :
    ∃ k, k ≤ n ∧ t.out = fillPrefix c n k s := by
  by_cases ho : t.phase.isOutput = true
  · obtain ⟨_, hsel, hsent, hrk, j, hoff, hlen, hctr, hout⟩ := (fillProgress_output ho).1 h
    obtain ⟨hpos, hle, hshape⟩ := outputCount_shape hsel ho
    exact ⟨_, by rcases hshape with ⟨h1, h2⟩ | ⟨h1, h2⟩ <;> omega, hout⟩
  · refine ⟨n, le_refl _, ?_⟩
    obtain ⟨_, hc⟩ := h
    generalize hp : t.phase = p at hc ho
    cases p <;> simp [Phase.isOutput] at ho <;> simp only at hc
    · rw [hc]; rfl
    · exact hc.2.2.2.2.2
    · exact hc.1.2.2.2.2.2
    · exact hc.1.2.2.2.2.2

end Sys2Proof.Machine
end

