-- ==== Sys2Proof/Laws/Invariant.lean ====
section
/-! SUPPORT. The invariant of Sys2Proof/Safety.lean under each operation: consuming bytes, taking a fault, the command steps,
acceptance, and each micro-step. -/

namespace Sys2Proof.Machine

open Sys2Proof

/-- No answer of `select` is a rest phase, nor one of the phases after the key block, nor one of SEED's. -/
theorem select_ne (c : Config) (r : Nat) :
    select c r ≠ .halt ∧ select c r ≠ .rkexp ∧ select c r ≠ .swap ∧ select c r ≠ .sdexp ∧ select c r ≠ .sdcommit ∧
    (select c r).isRest = false := by
  rcases select_cases c r with ⟨h, _⟩ | ⟨h, _⟩ | ⟨h, _⟩ | ⟨h, _⟩ | ⟨h, _⟩ <;> rw [h] <;> decide

/-- A phase that is `select`'s and writes no output has nothing left to write. -/
theorem select_not_output {c : Config} {r : Nat} (h : (select c r).isOutput = false) : r = 0 := by
  by_contra hne
  rw [select_isOutput c r (by omega)] at h
  simp at h

/-- Outside `HALT` there is no fault, and outside `IDLE` nothing stands in the latch. -/
theorem State.Inv.underWay {c : Config} {s : State} (h : s.Inv c) (hr : s.phase.isRest = false) :
    s.fault = false ∧ s.fcode = .none ∧ s.latch = [] := by
  have hf : s.fault = false := by
    by_contra hne
    have := h.faultHalt.1 (by simpa using hne)
    rw [this] at hr
    simp [Phase.isRest] at hr
  refine ⟨hf, h.codeFault.2 hf, ?_⟩
  by_contra hne
  have := (h.latchPartial hne).1
  rw [this] at hr
  simp [Phase.isRest] at hr

theorem inv_fetched {c : Config} {s : State} (h : s.Inv c) (hr : s.ready = true) (l cm : List Byte)
    (hl : l ≠ [] → decode l = .incomplete) : ({ s with latch := l, cmd := cm } : State).Inv c := by
  have hp := ((ready_iff s).1 hr).1
  exact { h with
    latchPartial := fun hne => ⟨hp, hl hne⟩, restErased := h.restErased, outputEnabled := h.outputEnabled }

/-- The host's room is no part of the invariant. -/
theorem inv_hostPaces {c : Config} {s : State} (p : Pace) (h : s.Inv c) : (hostPaces p s).Inv c :=
  { h with restErased := h.restErased, outputEnabled := h.outputEnabled }

theorem inv_takeReset {c : Config} {s : State} (h : s.Inv c) : (takeReset s).Inv c := by
  constructor <;> simp [Phase.isRest, Phase.isOutput, Phase.isFill, State.Erased]
  exact h.prefixWritten

theorem inv_raiseFault {c : Config} {s : State} {k : FCode} (h : s.Inv c) (hr : s.ready = true) (hk : k ≠ .none)
    (hl : s.latch = []) : (raiseFault k s).Inv c := by
  have hp := (ready_iff s).1 hr
  have hz := h.restErased (by rw [hp.1]; rfl)
  have hs0 := h.sentZero (by rw [hp.1]; rfl)
  constructor <;> simp [hk, Phase.isRest, Phase.isOutput, Phase.isFill, hs0, hl]
  · exact h.unseededZero
  · exact h.scheduleExpanded
  · exact hz
  · exact h.prefixWritten

theorem inv_seedCommand {c : Config} {s : State} {x : Seed} (h : s.Inv c) (hr : s.ready = true) :
    (seedCommand x s).Inv c := by
  have hp := (ready_iff s).1 hr
  have hz := h.restErased (by rw [hp.1]; rfl)
  have hs0 := h.sentZero (by rw [hp.1]; rfl)
  constructor <;> simp [hp.1, hp.2, Phase.isRest, Phase.isOutput, Phase.isFill, State.Erased, hz.2, hs0]
  · exact h.codeFault.2 hp.2
  · rw [keyAt_expand _ _ (by omega)]; rfl
  · intro hl; exact (h.latchPartial hl).2
  · exact h.prefixWritten

theorem inv_acceptSeed {c : Config} {s : State} {x : Seed} (h : s.Inv c) (hr : s.ready = true) (hl : s.latch = []) :
    (acceptSeed x s).Inv c := by
  have hp := (ready_iff s).1 hr
  have hz := h.restErased (by rw [hp.1]; rfl)
  have hs0 := h.sentZero (by rw [hp.1]; rfl)
  constructor <;> simp [hp.2, Phase.isRest, Phase.isOutput, Phase.isFill, State.Erased, hz.2, hs0, hl]
  · exact h.codeFault.2 hp.2
  · exact h.unseededZero
  · exact h.scheduleExpanded
  · exact h.prefixWritten

theorem inv_fillCommand {c : Config} {s : State} {n : Nat} (h : s.Inv c) (hr : s.ready = true)
    (hsd : s.seeded = true) : (fillCommand c n s).Inv c := by
  have hp := (ready_iff s).1 hr
  have written := Memory.writeBytes_range []
    ((streamBytes c.ctrIncWidth s.rk s.ctr (blockCount n)).take n) rfl
  simp only [List.length_nil, Nat.zero_add] at written
  constructor
  · simp [hp.1, hp.2]
  · simpa [hp.2] using h.codeFault.2 hp.2
  · simp [hsd]
  · intro _; rw [fillCommand_rk, rekey, expand_entry_zero]
  · intro hl; exact h.latchPartial hl
  · simp [State.Erased]
  · simp [hp.1, Phase.isOutput]
  · simp
  · simp [hp.1, Phase.isFill]
  · simp [hp.1, Phase.isFill]
  · simp
  · simp [hp.1]
  · simp [hp.1]
  · simp [hp.1]
  · simp only [fillCommand_out, OutSpace.write_cells, OutSpace.write_len, OutSpace.fresh_cells, OutSpace.fresh_len]
    rw [written.2]
    exact ⟨written.1, by simp⟩

theorem inv_acceptFill {c : Config} {s : State} {n : Nat} (h : s.Inv c) (hr : s.ready = true)
    (hsd : s.seeded = true) (hl : s.latch = []) (hn : n < 2 ^ 64) : (acceptFill c n s).Inv c := by
  have hp := (ready_iff s).1 hr
  have hlen : (lenOf n).toNat = n := lenOf_toNat n hn
  have hsel : (acceptFill c n s).phase = select c (acceptFill c n s).rem.toNat := by simp [hlen]
  have hq : (acceptFill c n s).phase = select c n := rfl
  obtain ⟨n1, n2, n3, n4, n5, n6⟩ := select_ne c n
  constructor
  · simp [hp.2, n1]
  · simp [h.codeFault.2 hp.2, hp.2]
  · exact h.unseededZero
  · exact h.scheduleExpanded
  · simp [hl]
  · simp [n6]
  · intro ho; exact ⟨hsel, (outputCount_shape hsel ho).1⟩
  · simp
  · intro _; exact ⟨hsd, by simp [hlen], by simpa [lenWidth] using hn⟩
  · simp
  · rw [hq]
    rintro (⟨_, ho⟩ | ho | ho)
    · obtain rfl := select_not_output ho
      rfl
    · exact absurd ho n4
    · exact absurd ho n5
  · rw [hq]; rintro (ho | ho)
    · exact absurd ho n2
    · exact absurd ho n3
  · rw [hq]; intro ho; exact absurd ho n3
  · rw [hq]; intro ho; exact absurd ho n5
  · simp

/-- An output micro-step, whole or cut short by the host. -/
theorem inv_outputStep {c : Config} {s t : State} (h : s.Inv c) (ho : s.phase.isOutput = true)
    (hst : outputStep c s = .next t) : t.Inv c := by
  have phase_ne : ∀ p : Phase, p.isOutput = true →
      p.isFill = true ∧ p ≠ .halt ∧ p ≠ .rkexp ∧ p ≠ .swap ∧ p ≠ .sdexp ∧ p ≠ .sdcommit ∧ p.isRest = false := by
    intro p
    cases p <;> simp [Phase.isOutput, Phase.isRest, Phase.isFill]
  obtain ⟨hf, p1, p2, p3, p4, p5, p6⟩ := phase_ne _ ho
  obtain ⟨hsel, hsent⟩ := h.outputEnabled ho
  obtain ⟨hsd, hlen, hlt⟩ := h.fillLength hf
  obtain ⟨hnf, hc0, hl0⟩ := h.underWay p6
  have hwr := h.fillWritten hf
  obtain ⟨hpos, hle, hshape⟩ := outputCount_shape hsel ho
  have htook : s.took ≤ s.outputCount - s.sent := Pace.takes_le _ _
  have hbl := outputBytes_length hsel ho
  have hcr : s.outputCount ≤ s.rem.toNat := by rcases hshape with ⟨h1, h2⟩ | ⟨h1, h2⟩ <;> omega
  have hrt := s.rem.isLt
  have hcnt : (BitVec.ofNat 64 s.outputCount).toNat = s.outputCount := lenOf_toNat _ (by omega)
  have hleft : (s.rem - BitVec.ofNat 64 s.outputCount).toNat = s.rem.toNat - s.outputCount := by
    rw [BitVec.toNat_sub_of_le (by rw [BitVec.le_def, hcnt]; omega), hcnt]
  have hcells : (takeOutput c s).out.cells.map Prod.fst = List.range (s.off.toNat + s.sent + s.took) ∧
      (takeOutput c s).out.cells.length = s.off.toNat + s.sent + s.took := by
    have hr := Memory.writeBytes_range s.out.cells (((s.outputBytes c).drop s.sent).take s.took) h.prefixWritten.1
    have hll : (((s.outputBytes c).drop s.sent).take s.took).length = s.took := by simp; omega
    rw [hwr, hll] at hr
    exact hr
  obtain ⟨_, hsp, ⟨hdone, rfl⟩ | ⟨hmore, rfl⟩⟩ := outputStep_cases hst
  · have hrem : (commitOutput c (takeOutput c s)).rem = s.rem - BitVec.ofNat 64 s.outputCount := rfl
    have hq : (commitOutput c (takeOutput c s)).phase = select c (s.rem.toNat - s.outputCount) := by
      rw [← hleft]; rfl
    have hsel' : (commitOutput c (takeOutput c s)).phase = select c (commitOutput c (takeOutput c s)).rem.toNat := rfl
    have hoff : (commitOutput c (takeOutput c s)).off.toNat = s.off.toNat + s.outputCount := by
      show (s.off + BitVec.ofNat 64 s.outputCount).toNat = _
      rw [BitVec.toNat_add, hcnt]
      simp only [lenWidth] at hlt
      omega
    obtain ⟨n1, n2, n3, n4, n5, n6⟩ := select_ne c (s.rem.toNat - s.outputCount)
    constructor
    · rw [hq]; simp [hnf, n1]
    · simp [hc0, hnf]
    · simp [hsd]
    · intro _; exact h.scheduleExpanded hsd
    · simp [hl0]
    · rw [hq]; simp [n6]
    · intro ho'; exact ⟨hsel', (outputCount_shape hsel' ho').1⟩
    · simp
    · intro _
      refine ⟨hsd, ?_, hlt⟩
      rw [hoff, hrem, hleft]
      show _ = s.out.len
      omega
    · intro _; rw [hoff, commitOutput_sent, commitOutput_out, hcells.2]; omega
    · rw [hq]
      rintro (⟨_, ho'⟩ | ho' | ho')
      · have := select_not_output ho'
        apply BitVec.eq_of_toNat_eq
        rw [hrem, hleft, this]
        rfl
      · exact absurd ho' n4
      · exact absurd ho' n5
    · rw [hq]; rintro (ho | ho)
      · exact absurd ho n2
      · exact absurd ho n3
    · rw [hq]; intro ho; exact absurd ho n3
    · rw [hq]; intro ho; exact absurd ho n5
    · rw [commitOutput_out, hcells.2]; exact ⟨hcells.1, hsp⟩
  · constructor
    · simp [hnf, p1]
    · simp [hc0, hnf]
    · simp [hsd]
    · intro _; exact h.scheduleExpanded hsd
    · simp [hl0]
    · simp [p6]
    · intro _; exact ⟨hsel, hmore⟩
    · simp [ho]
    · intro _; exact ⟨hsd, hlen, hlt⟩
    · intro _; rw [hcells.2]; simp; omega
    · simp [ho, p4, p5]
    · simp [p2, p3]
    · simp [p3]
    · simp [p5]
    · rw [hcells.2]; exact ⟨hcells.1, hsp⟩

/-- Any micro-step. -/
theorem inv_microStep {c : Config} {s t : State} (h : s.Inv c) (hst : microStep c s = .next t) : t.Inv c := by
  rcases microStep_cases hst with ⟨_, rfl⟩ | ⟨ho, h'⟩ | ⟨hp, hr, rfl⟩ | ⟨hp, rfl⟩ | ⟨hp, rfl⟩ | ⟨hp, rfl⟩ | ⟨hp, rfl⟩
  · exact h
  · exact inv_outputStep h ho h'
  all_goals
    obtain ⟨hnf, hc0, hl0⟩ := h.underWay (by rw [hp]; rfl)
    have hs0 := h.sentZero (by rw [hp]; rfl)
    have hr0 := h.remZero (by rw [hp]; simp [Phase.isFill, Phase.isOutput])
  · obtain ⟨a1, a2, a3⟩ := h.fillLength (by rw [hp]; rfl)
    have a4 := h.fillWritten (by rw [hp]; rfl)
    constructor <;> simp [hnf, hc0, hl0, hs0, hr0, Phase.isRest, Phase.isOutput, Phase.isFill, a1]
    · exact h.scheduleExpanded a1
    · exact ⟨by rw [hr0] at a2; simpa using a2, by simpa [lenWidth] using a3⟩
    · omega
    · rfl
    · exact h.prefixWritten
  · obtain ⟨a1, a2, a3⟩ := h.fillLength (by rw [hp]; rfl)
    have a4 := h.fillWritten (by rw [hp]; rfl)
    have hk := h.keyBlockReady (.inl hp)
    constructor <;> simp [hnf, hc0, hl0, hs0, hr0, Phase.isRest, Phase.isOutput, Phase.isFill, a1]
    · exact h.scheduleExpanded a1
    · exact ⟨by rw [hr0] at a2; simpa using a2, by simpa [lenWidth] using a3⟩
    · omega
    · exact hk
    · rw [hk.2]; rfl
    · exact h.prefixWritten
  · obtain ⟨a1, a2, a3⟩ := h.fillLength (by rw [hp]; rfl)
    have hn := h.shadowReady hp
    constructor <;> simp [hnf, hc0, hl0, hs0, hr0, Phase.isRest, Phase.isOutput, Phase.isFill, a1, State.Erased]
    · rw [hn, rekey, expand_entry_zero]
    · exact h.prefixWritten
  · constructor <;> simp [hnf, hc0, hl0, hs0, hr0, Phase.isRest, Phase.isOutput, Phase.isFill, State.Erased]
    · exact h.unseededZero
    · exact h.scheduleExpanded
    · exact h.prefixWritten
  · have hn := h.seedReady hp
    constructor <;> simp [hnf, hc0, hl0, hs0, hr0, Phase.isRest, Phase.isOutput, Phase.isFill, State.Erased]
    · rw [hn, expand_entry_zero]
    · exact h.prefixWritten

end Sys2Proof.Machine
end

