-- ==== Sys2Proof/Laws/PerInstr.lean ====
section
/-! SUPPORT. Statements made once per command. `EncodingSize`: the first byte of a command's encoding tells the decoder how
many bytes the command has (spec/30_encoding.md R84), and the encoding has just as many. -/

namespace Sys2Proof.Laws.EncodingSize

open Sys2Proof

def Statement (i : Instr) : Prop :=
  ∃ opcode operand, encode i = opcode :: operand ∧ (encode i).length = commandLength opcode

theorem seed (s : Seed) : Statement (.seed s) :=
  ⟨opSeed, leBytes 32 s.toNat, rfl, by simp [encode, commandLength]⟩

theorem fill (n : Nat) : Statement (.fill n) :=
  ⟨opFill, leBytes 8 n, rfl, by simp [encode, commandLength, opFill, opSeed]⟩

end Sys2Proof.Laws.EncodingSize
end

