-- ==== Sys2Proof/Laws/Runs.lean ====
section
/-! SUPPORT. A whole output micro-step, for any output phase, lane count and adder width; and the run of micro-steps from
where a FILL stands to its end, for a host that takes every byte it still has to take, and for one that makes it wait and resumes it
(spec/20_memory.md R71). -/

namespace Sys2Proof.Machine

open Sys2Proof

/-- Where the host takes all of an output micro-step's bytes, the micro-step is whole (R143 to R146). -/
theorem outputStep_effect {c : Config} {s : State} (hsel : s.phase = select c s.rem.toNat)
    (ho : s.phase.isOutput = true) (h0 : s.sent = 0) (hl : s.off.toNat + s.rem.toNat = s.out.len)
    (hlt : s.out.len < 2 ^ 64) (hp : s.pace.takes s.outputCount = s.outputCount) :
    microStep c s = .next (commitOutput c (takeOutput c s)) ∧
    OutputStepEffect c (outputBlocks s.phase) s.outputCount (select c (s.rem.toNat - s.outputCount)) s
      (commitOutput c (takeOutput c s)) := by
  obtain ⟨hpos, hle, hshape⟩ := outputCount_shape hsel ho
  have htook : s.took = s.outputCount := by simp [State.took, h0, hp]
  have hcr : s.outputCount ≤ s.rem.toNat := by rcases hshape with ⟨h1, h2⟩ | ⟨h1, h2⟩ <;> omega
  have hcnt : (BitVec.ofNat 64 s.outputCount).toNat = s.outputCount :=
    lenOf_toNat _ (by have := s.rem.isLt; omega)
  have hleft : (s.rem - BitVec.ofNat 64 s.outputCount).toNat = s.rem.toNat - s.outputCount := by
    rw [BitVec.toNat_sub_of_le (by rw [BitVec.le_def, hcnt]; omega), hcnt]
  have hbl := outputBytes_length hsel ho
  have hcount : (takeOutput c s).outputCount = s.outputCount := rfl
  constructor
  · rw [microStep_output c ho, outputStep_eq hsel (by omega), if_pos (by omega)]
  · refine ⟨?_, ?_, ?_, rfl, ?_, ?_, ?_, ?_⟩
    · intro j
      simp [scratchWith, outBlock]
      rfl
    · intro j i hj hi hij
      have hb : (s.outputBytes c)[16 * j + i]? = some (byteAt (outBlock c.ctrIncWidth s.rk s.ctr j) i) := by
        rw [State.outputBytes, List.getElem?_take_of_lt hij, streamBytes_getElem? _ _ _ _ _ _ hj hi]
      rw [commitOutput_out, takeOutput_out, OutSpace.read_write, h0, htook, if_pos (by simp; omega)]
      simp only [List.drop_zero, Nat.add_zero, Nat.add_sub_cancel_left]
      rw [List.getElem?_take_of_lt hij, hb]
      rfl
    · intro a ha
      rw [commitOutput_out, takeOutput_out, OutSpace.read_write, h0, htook, if_neg (by simp; omega)]
    · rw [commitOutput_off, takeOutput_off, hcount, BitVec.toNat_add, hcnt]; omega
    · rw [commitOutput_rem, takeOutput_rem, hcount, hleft]; omega
    · rw [commitOutput_phase, takeOutput_rem, hcount, hleft]
    · simp [SameOutsideOutput]

/-- From an output phase, between micro-steps, to the beginning of the rekey. The bound `k` on `REM` is what the
induction runs on. -/
theorem fillProgress_outputRun {c : Config} {n : Nat} {s : State} (hn : n < 2 ^ 64) (hs : s.phase = .idle) (k : Nat) :
    ∀ t, FillProgress c n s t → t.phase.isOutput = true → t.sent = 0 → t.rem.toNat ≤ k →
      t.pace.takes t.rem.toNat = t.rem.toNat →
      ∃ m u, m ≤ blockCount t.rem.toNat ∧ microRun c m t = .next u ∧ FillProgress c n s u ∧ u.phase = .rkenc ∧
        u.pace = t.pace.after t.rem.toNat := by
  induction k with
  | zero =>
    intro t h ho h0 hk
    obtain ⟨_, hsel, hsent, _⟩ := (fillProgress_output ho).1 h
    obtain ⟨hpos, hle, hshape⟩ := outputCount_shape hsel ho
    rcases hshape with ⟨h1, h2⟩ | ⟨h1, h2⟩ <;> omega
  | succ k ih =>
    intro t h ho h0 hk hp
    obtain ⟨_, hsel, hsent, hrk, j, hoff, hlen, hctr, hout⟩ := (fillProgress_output ho).1 h
    obtain ⟨hpos, hle, hshape⟩ := outputCount_shape hsel ho
    have hcr : t.outputCount ≤ t.rem.toNat := by rcases hshape with ⟨h1, h2⟩ | ⟨h1, h2⟩ <;> omega
    have hsplit : t.outputCount + (t.rem.toNat - t.outputCount) = t.rem.toNat := by omega
    obtain ⟨p1, p2⟩ := Pace.takes_add (p := t.pace) (a := t.outputCount) (b := t.rem.toNat - t.outputCount)
      (by rw [hsplit]; exact hp)
    have htook : t.took = t.outputCount := by simp [State.took, h0, p1]
    obtain ⟨hstep, heff⟩ := outputStep_effect hsel ho h0 (by rw [hout]; simp; omega) (by rw [hout]; simpa using hn) p1
    obtain ⟨u, hu, hprog⟩ := fillProgress_microStep hn hs h
    rw [hstep] at hu
    simp only [Host.Outcome.next.injEq] at hu
    subst hu
    have hrem : (commitOutput c (takeOutput c t)).rem.toNat + t.outputCount = t.rem.toNat := heff.2.2.2.2.2.1
    have hph := heff.2.2.2.2.2.2.1
    have hpace : (commitOutput c (takeOutput c t)).pace = t.pace.after t.outputCount := by simp [htook]
    rcases hshape with ⟨h1, h2⟩ | ⟨h1, h2⟩
    · have hleft : (commitOutput c (takeOutput c t)).rem.toNat = t.rem.toNat - t.outputCount := by omega
      obtain ⟨m, u, hm, hrun, hpr, hpk, hpa⟩ := ih _ hprog (by rw [hph]; exact select_isOutput c _ (by omega)) rfl
        (by omega) (by rw [hpace, hleft]; exact p2)
      refine ⟨m + 1, u, ?_, by simp [microRun, hstep, hrun], hpr, hpk, ?_⟩
      · simp only [blockCount] at *; omega
      · rw [hpa, hpace, Pace.after_add]; congr 1; omega
    · refine ⟨1, _, ?_, by simp [microRun, hstep], hprog, ?_, ?_⟩
      · simp only [blockCount]; omega
      · rw [hph, h1, Nat.sub_self, select_zero]
      · rw [hpace, h1]

/-- The three micro-steps of the rekey end a FILL in the command step's state (R152, R160 to R164). -/
theorem fillProgress_rekeyRun {c : Config} {n : Nat} {s t : State} (h : FillProgress c n s t) (hn : n < 2 ^ 64)
    (hs : s.phase = .idle) (hp : t.phase = .rkenc) :
    microRun c 3 t = .next { fillCommand c n s with pace := t.pace } := by
  have hr : t.rem = 0#64 := ((fillProgress_rkenc hp).1 h).2.2.2.1
  obtain ⟨u, hu, hpr⟩ := fillProgress_microRun hn hs h 3
  have he : u = swapStep (rkexpStep (rkencWrites t)) := by
    simp [microRun, microStep, hp, rkencStep, hr] at hu; exact hu.symm
  have hcase := hpr.2
  rw [show u.phase = .idle by rw [he]; rfl] at hcase
  simp only at hcase
  rw [hu, hcase, he]
  rfl

/-- In `IDLE` micro-steps change nothing. -/
theorem microRun_idle (c : Config) (m : Nat) {s : State} (h : s.phase = .idle) : microRun c m s = .next s := by
  induction m with
  | zero => rfl
  | succ m ih => simp [microRun, microStep, h, ih]

/-- How many bytes and rekey steps a FILL under way still has before it. -/
def State.workLeft (t : State) : Nat :=
  match t.phase with
  | .f8 | .f2 | .f1 | .tail => t.rem.toNat - t.sent + 3
  | .rkenc => 3
  | .rkexp => 2
  | .swap => 1
  | .idle | .sdexp | .sdcommit | .halt => 0

theorem State.workLeft_output {t : State} (ho : t.phase.isOutput = true) : t.workLeft = t.rem.toNat - t.sent + 3 := by
  unfold State.workLeft
  generalize hp : t.phase = p at ho
  cases p <;> simp_all [Phase.isOutput]

/-- The host's room is no part of where a FILL stands. -/
theorem fillProgress_hostPaces {c : Config} {n : Nat} {s t : State} (p : Pace) (h : FillProgress c n s t) :
    FillProgress c n s (hostPaces p t) := by
  obtain ⟨around, hcase⟩ := h
  refine ⟨around, ?_⟩
  generalize hp : t.phase = q at hcase
  rw [show (hostPaces p t).phase = q from hp]
  cases q <;> simp only at * <;> first | exact hcase | (rw [hcase]; rfl)

/-- A micro-step of a FILL under way leaves no more to do than before, and less where the host has room. -/
theorem fillProgress_workLeft {c : Config} {n r : Nat} {s t u : State} (h : FillProgress c n s t)
    (hpace : t.pace = .paced r) (hu : microStep c t = .next u) :
    u.workLeft ≤ t.workLeft ∧ (0 < r → 0 < t.workLeft → u.workLeft < t.workLeft) := by
  rcases microStep_cases hu with ⟨hp, rfl⟩ | ⟨ho, hst⟩ | ⟨hp, _, rfl⟩ | ⟨hp, rfl⟩ | ⟨hp, rfl⟩ | ⟨hp, rfl⟩ | ⟨hp, rfl⟩
  · simp [State.workLeft, hp]
  · obtain ⟨_, hsel, hsent, _⟩ := (fillProgress_output ho).1 h
    obtain ⟨hpos, hle, hshape⟩ := outputCount_shape hsel ho
    have hcr : t.outputCount ≤ t.rem.toNat := by rcases hshape with ⟨h1, h2⟩ | ⟨h1, h2⟩ <;> omega
    have htook : t.took = min r (t.outputCount - t.sent) := by simp [State.took, hpace, Pace.takes]
    rw [State.workLeft_output ho]
    obtain ⟨_, _, ⟨hdone, rfl⟩ | ⟨hmore, rfl⟩⟩ := outputStep_cases hst
    · have hcnt : (BitVec.ofNat 64 t.outputCount).toNat = t.outputCount :=
        lenOf_toNat _ (by have := t.rem.isLt; omega)
      have hleft : (commitOutput c (takeOutput c t)).rem.toNat = t.rem.toNat - t.outputCount := by
        show (t.rem - BitVec.ofNat 64 t.outputCount).toNat = _
        rw [BitVec.toNat_sub_of_le (by rw [BitVec.le_def, hcnt]; omega), hcnt]
      have hphase : (commitOutput c (takeOutput c t)).phase = select c (t.rem.toNat - t.outputCount) := by
        rw [← hleft]; rfl
      have hwork : (commitOutput c (takeOutput c t)).workLeft = t.rem.toNat - t.outputCount + 3 := by
        by_cases hz : t.rem.toNat - t.outputCount = 0
        · rw [hz, select_zero] at hphase
          simp only [State.workLeft, hphase, hz, Nat.zero_add]
        · rw [State.workLeft_output (by rw [hphase]; exact select_isOutput c _ (by omega)), commitOutput_sent, hleft,
            Nat.sub_zero]
      rw [hwork]; omega
    · rw [State.workLeft_output (t := takeOutput c t) ho, takeOutput_rem, takeOutput_sent]; omega
  · simp [State.workLeft, hp]
  · simp [State.workLeft, hp]
  · simp [State.workLeft, hp]
  · simp [State.workLeft, hp, sdexpStep]
  · simp [State.workLeft, hp, sdcommitStep]

/-- Any list of offers: the FILL still stands where it may, and each offer of room has brought it on. -/
theorem fillProgress_offeredRun {c : Config} {n : Nat} {s t : State} (hn : n < 2 ^ 64) (hs : s.phase = .idle)
    (h : FillProgress c n s t) (rs : List Nat) :
    ∃ u, offeredRun (microStep c) rs t = .next u ∧ FillProgress c n s u ∧
      u.workLeft ≤ t.workLeft - rs.countP (0 < ·) := by
  induction rs generalizing t with
  | nil => exact ⟨t, rfl, h, by simp⟩
  | cons r rs ih =>
    have h' := fillProgress_hostPaces (.paced r) h
    obtain ⟨u, hu, hp⟩ := fillProgress_microStep hn hs h'
    obtain ⟨v, hv, hq, hw⟩ := ih hp
    obtain ⟨w1, w2⟩ := fillProgress_workLeft h' rfl hu
    have hsame : (hostPaces (.paced r) t).workLeft = t.workLeft := rfl
    rw [hsame] at w1 w2
    refine ⟨v, by simp only [offeredRun, hu]; exact hv, hq, ?_⟩
    rw [List.countP_cons]
    by_cases hr : 0 < r
    · simp only [hr, decide_true, if_true]
      by_cases ht : 0 < t.workLeft
      · have := w2 hr ht; omega
      · omega
    · simp only [hr, decide_false, Bool.false_eq_true, if_false]; omega

/-- A FILL under way with nothing left to do is over. -/
theorem fillProgress_idle {c : Config} {n : Nat} {s t : State} (h : FillProgress c n s t) (hw : t.workLeft = 0) :
    t.phase = .idle := by
  obtain ⟨-, hcase⟩ := h
  unfold State.workLeft at hw
  generalize hp : t.phase = q at hcase hw
  cases q <;> simp only at hcase hw <;> first | rfl | exact hcase.elim | omega

end Sys2Proof.Machine
end

