-- ==== Sys2Proof/Tests/Slice0.lean ====
section
/-! SUPPORT. The model's own tests: ill-formed terms refused, words written out from the spec's encodings, two small tests
per command with the values of spec/95_test_vectors.md, and for every obligation with hypotheses a state and operands that
meet them. -/

namespace Sys2Proof.Tests

open Sys2Proof Sys2Proof.Machine

/-! ### Well-formedness -/

/-- A length of `2^64` is not encodable (R83). -/
theorem test_fill_length_2_64_is_ill_formed : ¬ (Instr.fill (2 ^ 64)).WellFormed := by decide

theorem test_fill_length_below_2_64_is_well_formed : (Instr.fill (2 ^ 64 - 1)).WellFormed := by decide

/-! ### Decoding, from the formats of R82 and R83 -/

/-- `FILL 200`: opcode `00000010` in bits 7:0, length `11001000` in bits 15:8, zeros above (R83, R89). -/
theorem test_decode_fill_bit_by_bit : decodeTableWord 72 0b1100100000000010 = some (.fill 200) := by decide

/-- `FILL`: bits 71:64 are the most significant byte of the length (R83). -/
theorem test_decode_fill_top_byte :
    decodeTableWord 72 (0b00000010 + 2 ^ 64 * 0b10000000) = some (.fill (2 ^ 63)) := by decide

/-- `SEED` of the ascending seed: opcode `00000001`, then seed byte `a = a` at bits `8a+15 .. 8a+8` (R82). -/
theorem test_decode_seed_word :
    decodeTableWord 264
      (0b00000001 + 2 ^ 8 * 0x1f1e1d1c1b1a191817161514131211100f0e0d0c0b0a09080706050403020100) =
    some (.seed 0x1f1e1d1c1b1a191817161514131211100f0e0d0c0b0a09080706050403020100#256) := by decide

theorem test_decode_seed_bytes :
    decode (0b00000001#8 :: (List.range 32).map (BitVec.ofNat 8)) =
    .command (.seed 0x1f1e1d1c1b1a191817161514131211100f0e0d0c0b0a09080706050403020100#256) [] := by decide

/-- `0x00` and `0x03` are reserved; the byte after is not consumed (R85, R86). -/
theorem test_decode_reserved :
    decode [0x00#8, 0x01#8] = .illegal 0x00#8 [0x01#8] ∧ decode [0x03#8] = .illegal 0x03#8 [] ∧
    decodeTableWord 72 0b00000011 = none := by decide

/-- A FILL with seven of its eight length bytes is incomplete (R91). -/
theorem test_decode_incomplete : decode (0x02#8 :: List.replicate 7 0#8) = .incomplete := by decide

/-- The text of R89 and R90. -/
theorem test_text :
    parseCommand ['F', 'I', 'L', 'L', ' ', '2', '0', '0'] = some (.fill 200) ∧
    parseCommand ['R', 'E', 'K', 'E', 'Y'] = some (.fill 0) ∧ parseCommand ['F', 'I', 'L', 'L', ' '] = none := by
  decide

/-! ### One step of each command -/

/-- A condition on the next state, false where there is none. -/
def nextMeets (p : State → Bool) : Host.Outcome State Fault Refusal → Bool
  | .next t => p t
  | .fault _ => false
  | .refused _ => false

/-- The ascending seed of spec/95_test_vectors.md section 1. -/
def ascending : Seed := 0x1f1e1d1c1b1a191817161514131211100f0e0d0c0b0a09080706050403020100#256

/-- After `ASC` (R176), for a host of the given pace. -/
def afterAscending (p : Pace) : State := { seedCommand ascending State.reset with pace := p }

/-- `ASC` as the first command after reset: R176. -/
theorem test_seed_ascending :
    nextMeets (fun t => decide (keyAt t.rk 0 = ofHex 0x000102030405060708090a0b0c0d0e0f ∧
      keyAt t.rk 10 = ofHex 0x13111d7fe3944a17f307a78b4d2b30c5 ∧
      t.ctr = ofHex 0x101112131415161718191a1b1c1d1e1f ∧ t.status = 0x01#8))
      (step (State.reset.withFetchWord 264 (encodeBits (.seed ascending)))) = true := by decide +kernel

/-- A pacing host sees a SEED accepted: `BUSY`, and nothing committed yet (R170). -/
theorem test_seed_accepted :
    nextMeets (fun t => decide (t.status = 0x02#8 ∧ t.phase = .sdexp ∧ t.seedbuf = ascending ∧ t.ctr = 0#128))
      (exec (.seed ascending) { State.reset with pace := .paced 0 }) = true := by decide +kernel

/-- `ASC; FILL 5`: the worked example of R140. -/
theorem test_fill_5 :
    nextMeets (fun t => decide (
      t.out = { len := 5, cells := [(0, 0x07#8), (1, 0xfe#8), (2, 0xef#8), (3, 0x74#8), (4, 0xe1#8)] } ∧
      t.ctr = ofHex 0x111112131415161718191a1b1c1d1e1f ∧
      keyAt t.rk 0 = ofHex 0x0c47884cfa9f682286e80f3b36c30c1b))
      (exec (.fill 5) (afterAscending .prompt)) = true := by decide +kernel

/-- `ASC; FILL 0`: no byte, the counter unchanged, another key (R153). -/
theorem test_fill_0 :
    nextMeets (fun t => decide (t.out = { len := 0, cells := [] } ∧
      t.ctr = ofHex 0x101112131415161718191a1b1c1d1e1f ∧
      keyAt t.rk 0 = ofHex 0x44cda428dae84533886b4a3e7de511ba))
      (exec (.fill 0) (afterAscending .prompt)) = true := by decide +kernel

/-- The two faults as `STATUS` shows them: `NotSeeded` (R182), `IllegalCommand` (R181), by the bits of R28. -/
theorem test_fault_status :
    nextMeets (fun t => decide (t.status = 0b00010100#8 ∧ t.out.cells = []))
      (step (State.reset.withFetchWord 72 0b1100100000000010)) = true ∧
    nextMeets (fun t => decide (t.status = 0b00001100#8 ∧ t.cmd = [0x01#8]))
      (step { State.reset with cmd := [0xff#8, 0x01#8] }) = true := by decide

/-! ### Hypotheses met: one theorem per obligation that has any -/

/-- Ready, with the given flag and pace. -/
def ready (seeded : Bool) (p : Pace) : State := { State.reset with seeded := seeded, pace := p }

/-- In a phase of a FILL of `len` bytes, `rem` of them still to write. -/
def inFill (ph : Phase) (len rem : Nat) (p : Pace) : State :=
  { State.reset with
    seeded := true, phase := ph, rem := lenOf rem, off := lenOf (len - rem), pace := p, out := OutSpace.fresh len }

theorem inv_reset : State.reset.Inv Config.core := by
  constructor <;> simp [State.reset, Phase.isRest, Phase.isOutput, Phase.isFill, State.Erased]

theorem inv_afterAscending (p : Pace) : (afterAscending p).Inv Config.core := by
  have h' := inv_seedCommand (x := ascending) inv_reset (by decide)
  exact { h' with restErased := h'.restErased, outputEnabled := h'.outputEnabled }

/-- `ASC; FILL 5`: a state a run reaches, with `OFF` at 5. -/
def afterFill5 : State := fillCommand Config.core 5 (afterAscending .prompt)

theorem inv_afterFill5 : afterFill5.Inv Config.core := inv_fillCommand (inv_afterAscending .prompt) rfl rfl

/-- The bounds of R13's clauses, at their ends. -/
theorem witness_BlockIntegerReadingIsLittleEndian :
    (127 < 128 ∧ (blk (2 ^ 127)).getLsbD 127 = (byteAt (blk (2 ^ 127)) (127 / 8)).getLsbD (127 % 8)) ∧
    (0 ≤ 127 ∧ bitsOf (blk (2 ^ 127)) 127 0 = 2 ^ 127) ∧ (3 < 4 ∧ (wordAt (blk (2 ^ 127)) 3).toNat = 2 ^ 31) := by
  decide +kernel

theorem witness_DecodeInvertsEncode :
    (Instr.fill (2 ^ 64 - 1)).WellFormed ∧ decode (encode (.fill (2 ^ 64 - 1)) ++ [0x01#8]) =
      .command (.fill (2 ^ 64 - 1)) [0x01#8] := by decide

/-- Each answer of the decoder is some string's. -/
theorem witness_DecoderClassifiesEveryByteString :
    decode (0x02#8 :: List.replicate 8 0#8) = .command (.fill 0) [] ∧ decode [0xff#8] = .illegal 0xff#8 [] ∧
    decode (0x01#8 :: List.replicate 31 0#8) = .incomplete ∧ decode [] = .incomplete := by decide

theorem witness_CommandBitsFollowTheTable :
    (31 < 32 ∧ (encode (.seed ascending))[1 + 31]? = some 0x1f#8) ∧ (2 ^ 64 - 1 < 2 ^ 64 ∧
      encodeBits (.fill (2 ^ 64 - 1)) = 0x02 + 2 ^ 8 * (2 ^ 64 - 1)) ∧
    (8 ≤ 8 ∧ 0x103 % 2 ^ 8 ≠ 0x01 ∧ 0x103 % 2 ^ 8 ≠ 0x02 ∧ decodeTableWord 8 0x103 = none) := by decide

theorem witness_CommandTextReadsBack :
    (Instr.fill (2 ^ 64 - 1)).WellFormed ∧
    parseCommand (commandText (.fill (2 ^ 64 - 1))) = some (.fill (2 ^ 64 - 1)) := by decide

theorem witness_StepRunsTheDecodedCommand :
    let s : State := { ready true .prompt with latch := [0x02#8], cmd := List.replicate 8 0#8 }
    s.rst = false ∧ s.phase = .idle ∧ s.fault = false ∧ decode (s.latch ++ s.cmd) = .command (.fill 0) [] := by decide

theorem witness_IncompleteCommandIsCollected :
    let s : State := { ready false .prompt with latch := [0x02#8], cmd := [0x05#8] }
    s.rst = false ∧ s.phase = .idle ∧ s.fault = false ∧ s.cmd = [0x05#8] ∧ decode (s.latch ++ s.cmd) = .incomplete ∧
    ∃ t, step s = .next t ∧ t.latch = [0x02#8, 0x05#8] :=
  ⟨rfl, rfl, rfl, rfl, rfl, _, rfl, rfl⟩

theorem witness_BusyCoreConsumesNoCommandByte :
    let s : State := { inFill .rkexp 0 0 .prompt with cmd := [0x01#8] }
    s.rst = false ∧ s.phase ≠ .idle ∧ step s = .next (rkexpStep s) := ⟨rfl, by decide, rfl⟩

theorem witness_SboxTableMatchesItsDefinition : 0x53#8 ≠ 0#8 ∧ gmul 0x53#8 0xca#8 = 1#8 ∧ sbox 0x53#8 = 0xed#8 := by
  decide

theorem witness_SubBytesAndShiftRowsByteByByte :
    15 < 16 ∧ 3 < 4 ∧ byteAt (shiftRows (ofHex 0x000102030405060708090a0b0c0d0e0f)) (3 + 4 * 3) = 0x0b#8 := by
  decide +kernel

theorem witness_RoundAndLastRoundComposition : 3 < 4 ∧ byteAt (lastRound 0#128 (blk (2 ^ 127))) (3 + 4 * 3) = 0xe3#8 := by
  decide +kernel

theorem witness_MixColumnsColumnByColumn :
    3 < 4 ∧ (∀ i, i < 4 → byteAt (0x01010101#32 ++ 0#96 : Block) (4 * 3 + i) = 0x01#8) := by decide +kernel

theorem witness_ExpandFollowsTheRoundConstants :
    (1 ≤ 9 ∧ 9 < 10 ∧ roundConstant 10 = 0x36#8) ∧ 1 ≤ 10 ∧ 10 ≤ 10 ∧
    keyAt (expand 0#128) 10 = ofHex 0xb4ef5bcb3e92e21123e951cf6f8f188e := by decide +kernel

theorem witness_KeySchedulePrimitivesByWordAndByte :
    3 < 4 ∧ 15 < 16 ∧ 1 ≤ 3 ∧ byteAt (shl32 (ofHex 0x00112233445566778899aabbccddeeff)) 15 = 0xbb#8 ∧
    byteAt (shl32 (ofHex 0x00112233445566778899aabbccddeeff)) 4 = 0x00#8 := by decide +kernel

/-- Both ends of the rounds' range, and R132 (b) after round 1. -/
theorem witness_EncryptBlockIsWhiteningNineRoundsAndLastRound :
    1 ≤ 1 ∧ 1 ≤ 9 ∧ 9 ≤ 9 ∧
    cipherRound (ofHex 0x10101010101010101010101010101010) (keyAt (expand (ofHex 0x000102030405060708090a0b0c0d0e0f)) 1) =
      ofHex 0x1c60be371865b830106cb23b1c61bc34 := by decide +kernel

theorem witness_CounterAdderLaws :
    val (blk (2 ^ 64 - 2)) % 2 ^ 64 + 1 < 2 ^ 64 ∧ ctrAdd .w64 (blk (2 ^ 64 - 2)) 1 = blk (2 ^ 64 - 1) := by
  decide +kernel

theorem witness_FlipInvertsTheTopBitAlone :
    14 < 15 ∧ (inFill .rkenc 0 0 .prompt).phase = .rkenc ∧ (inFill .rkenc 0 0 .prompt).rem = 0#64 := by decide

theorem witness_KeyBlockInputIsNoOutputCounter : 2 ^ 64 - 1 < 2 ^ 64 ∧ 2 ^ 60 - 1 < blockCount (2 ^ 64 - 1) := by decide

theorem witness_SeedSplitsByteForByte :
    15 < 16 ∧ byteAt (seedKey ascending) 15 = 0x0f#8 ∧ byteAt (seedCounter ascending) 15 = 0x1f#8 := by decide +kernel

/-- One state for each clause: prompt, pacing, the two micro-steps, busy, faulted. -/
theorem witness_SeedCommandLoadsScheduleCounterAndFlag :
    ((ready true .prompt).phase = .idle ∧ (ready true .prompt).fault = false ∧ (ready true .prompt).pace = .prompt) ∧
    ((ready false (.paced 0)).phase = .idle ∧ (ready false (.paced 0)).fault = false ∧
      (ready false (.paced 0)).pace = .paced 0) ∧
    (acceptSeed ascending (ready false (.paced 0))).phase = .sdexp ∧
    (sdexpStep (acceptSeed ascending (ready false (.paced 0)))).phase = .sdcommit ∧
    (inFill .swap 0 0 .prompt).phase ≠ .idle ∧ (raiseFault .notSeeded State.reset).fault = true :=
  ⟨by decide, by decide, rfl, rfl, by decide, rfl⟩

/-- The command step, acceptance, and a CORE that is not ready; `OFF` of each is the one the statement gives. -/
theorem witness_SeedLeavesOutputAndTheRestAlone :
    (exec (.seed ascending) afterFill5 = .next (seedCommand ascending afterFill5) ∧
      (seedCommand ascending afterFill5).off = 0#64) ∧
    (exec (.seed ascending) (ready false (.paced 0)) = .next (acceptSeed ascending (ready false (.paced 0))) ∧
      (acceptSeed ascending (ready false (.paced 0))).off = 0#64) ∧
    exec (.seed ascending) (inFill .tail 16 1 .prompt) = .next (inFill .tail 16 1 .prompt) :=
  ⟨⟨rfl, rfl⟩, ⟨rfl, rfl⟩, rfl⟩

theorem witness_SeedForgetsWhatStoodBefore :
    ((ready true .prompt).phase = .idle ∧ (ready true .prompt).fault = false ∧ (ready true .prompt).pace = .prompt ∧
      (ready false .prompt).phase = .idle ∧ (ready false .prompt).fault = false ∧
      (ready false .prompt).pace = .prompt ∧ ready true .prompt ≠ ready false .prompt) ∧
    (State.reset.Inv Config.core ∧ afterFill5.Inv Config.core ∧ State.reset.phase = .idle ∧ afterFill5.phase = .idle ∧
      State.reset.pace = .prompt ∧ afterFill5.pace = .prompt ∧ State.reset.off ≠ afterFill5.off) := by
  refine ⟨by decide, inv_reset, inv_afterFill5, rfl, rfl, rfl, rfl, ?_⟩
  rw [show afterFill5.off = 5#64 from rfl]
  decide

theorem witness_SeedMicroStepsComposeToTheCommand : State.reset.phase = .idle := rfl

/-- One state for each clause: ready and seeded, busy, faulted, unseeded, and the worked example's. -/
theorem witness_FillCommandOutputCounterAndSchedule :
    ((ready true .prompt).phase = .idle ∧ (ready true .prompt).fault = false ∧ (ready true .prompt).seeded = true ∧
      (ready true .prompt).pace = .prompt) ∧
    (inFill .swap 0 0 .prompt).phase ≠ .idle ∧ (raiseFault .notSeeded State.reset).fault = true ∧
    (State.reset.phase = .idle ∧ State.reset.fault = false ∧ State.reset.seeded = false) ∧
    ((afterAscending .prompt).phase = .idle ∧ (afterAscending .prompt).fault = false ∧
      (afterAscending .prompt).seeded = true ∧ (afterAscending .prompt).pace = .prompt ∧
      (afterAscending .prompt).rk = expand (ofHex 0x000102030405060708090a0b0c0d0e0f) ∧
      (afterAscending .prompt).ctr = ofHex 0x101112131415161718191a1b1c1d1e1f) := by decide +kernel

theorem witness_FillFrame :
    (ready true .prompt).phase = .idle ∧ (ready true .prompt).fault = false ∧ (ready true .prompt).seeded = true ∧
    (ready true .prompt).pace = .prompt := by decide

theorem witness_FillIsAPrefixOfLongerFill : 17 ≤ 32 ∧ 16 < 17 ∧ blockCount 17 = blockCount 32 := by decide

theorem witness_AcceptanceStartsTheFill :
    2 ^ 64 - 1 < 2 ^ 64 ∧ (ready true (.paced 7)).phase = .idle ∧ (ready true (.paced 7)).fault = false ∧
    (ready true (.paced 7)).seeded = true ∧ (ready true (.paced 7)).pace = .paced 7 := by decide

/-- The thresholds of R142, where they meet. -/
theorem test_select_at_the_thresholds :
    [0, 1, 16, 17, 32, 33, 128, 129].map (select Config.core) =
      [.rkenc, .tail, .tail, .f1, .f1, .f2, .f2, .f8] := by decide

theorem witness_EightLaneStep :
    let s := inFill .f8 300 129 .prompt
    s.phase = .f8 ∧ 128 < s.rem.toNat ∧ s.sent = 0 ∧ s.off.toNat + s.rem.toNat = s.out.len ∧ s.out.len < 2 ^ 64 ∧
    s.pace.takes 128 = 128 := by decide

theorem witness_TwoLaneStep :
    let s := inFill .f2 300 128 (.paced 32)
    s.phase = .f2 ∧ 32 < s.rem.toNat ∧ s.rem.toNat ≤ 128 ∧ s.sent = 0 ∧ s.off.toNat + s.rem.toNat = s.out.len ∧
    s.out.len < 2 ^ 64 ∧ s.pace.takes 32 = 32 := by decide

theorem witness_OneLaneStep :
    let s := inFill .f1 32 32 .prompt
    s.phase = .f1 ∧ 16 < s.rem.toNat ∧ s.rem.toNat ≤ 32 ∧ s.sent = 0 ∧ s.off.toNat + s.rem.toNat = s.out.len ∧
    s.out.len < 2 ^ 64 ∧ s.pace.takes 16 = 16 := by decide

theorem witness_TailStep :
    let s := inFill .tail 16 16 (.paced 16)
    s.phase = .tail ∧ 0 < s.rem.toNat ∧ s.rem.toNat ≤ 16 ∧ s.sent = 0 ∧ s.off.toNat + s.rem.toNat = s.out.len ∧
    s.out.len < 2 ^ 64 ∧ s.pace.takes s.rem.toNat = s.rem.toNat := by decide

/-- `ASC; FILL 40` accepted, the host offering `room` bytes. -/
def filling (room : Nat) : State := acceptFill Config.core 40 (afterAscending (.paced room))

theorem inv_filling (room : Nat) : (filling room).Inv Config.core :=
  inv_acceptFill (inv_afterAscending (.paced room)) rfl rfl rfl (by decide)

/-- The micro-step of `filling 7` once cut short after 7 of its 32 bytes, and the host given room again. -/
def resumed (p : Pace) : State := hostPaces p (takeOutput Config.core (filling 7))

theorem inv_resumed (p : Pace) : (resumed p).Inv Config.core :=
  inv_hostPaces p (inv_outputStep (inv_filling 7) rfl rfl)

/-- One state for each clause: nothing taken; cut short; resumed with room that just reaches the end, one byte less, and
by a prompt host; and the four phases. -/
theorem witness_BackPressureOnlyDelays :
    ((filling 0).Inv Config.core ∧ (filling 0).phase.isOutput = true ∧ (filling 0).pace = .paced 0) ∧
    ((filling 7).Inv Config.core ∧ (filling 7).phase.isOutput = true ∧ (filling 7).pace ≠ .paced 0 ∧
      (filling 7).sent + (filling 7).pace.takes ((filling 7).outputCount - (filling 7).sent) < (filling 7).outputCount) ∧
    (∀ p : Pace, (resumed p).Inv Config.core ∧ (resumed p).phase.isOutput = true ∧ (resumed p).sent = 7 ∧
      (resumed p).outputCount = 32) ∧
    7 + (resumed (.paced 25)).pace.takes (32 - 7) = 32 ∧ 7 + (resumed (.paced 24)).pace.takes (32 - 7) < 32 ∧
    7 + (resumed .prompt).pace.takes (32 - 7) = 32 ∧
    [Phase.f8, .f2, .f1, .tail].map (fun ph => (inFill ph 300 9 .prompt).phase) = [.f8, .f2, .f1, .tail] :=
  ⟨⟨inv_filling 0, rfl, rfl⟩, ⟨inv_filling 7, rfl, by decide, by decide⟩, fun p => ⟨inv_resumed p, rfl, rfl, rfl⟩,
    rfl, by decide, rfl, rfl⟩

theorem witness_OutputPhasesKeepTheSchedule :
    (filling 7).phase.isOutput = true ∧ microStep Config.core (filling 7) = .next (takeOutput Config.core (filling 7)) :=
  ⟨rfl, rfl⟩

theorem witness_RekeyMicroSteps :
    ((inFill .rkenc 0 0 .prompt).phase = .rkenc ∧ (inFill .rkenc 0 0 .prompt).rem = 0#64) ∧
    (inFill .rkexp 0 0 .prompt).phase = .rkexp ∧ (inFill .swap 0 0 .prompt).phase = .swap ∧
    microStep Config.core (inFill .swap 0 0 .prompt) = .next (swapStep (inFill .swap 0 0 .prompt)) :=
  ⟨by decide, rfl, rfl, rfl⟩

theorem witness_FillMicroStepsComposeToTheCommand :
    2 ^ 64 - 1 < 2 ^ 64 ∧ (ready true .prompt).phase = .idle ∧ (ready true .prompt).seeded = true ∧
    (ready true .prompt).pace.takes (2 ^ 64 - 1) = 2 ^ 64 - 1 := by decide

theorem witness_PacedFillRunEndsWhereTheCommandStepEnds :
    let s : State := { ready true (.paced 200) with cmd := encode (.fill 200) ++ [0x01#8] }
    200 < 2 ^ 64 ∧ 200 ≤ 200 ∧ s.rst = false ∧ s.phase = .idle ∧ s.fault = false ∧ s.seeded = true ∧ s.latch = [] ∧
    s.cmd = encode (.fill 200) ++ [0x01#8] ∧ s.pace = .paced 200 := by decide

/-- A host that waits first, and again after every byte. -/
theorem witness_StalledFillEndsWhereTheCommandStepEnds :
    let s : State := { afterAscending (.paced 0) with cmd := encode (.fill 40) }
    40 < 2 ^ 64 ∧ s.phase = .idle ∧ s.seeded = true ∧ s.rst = false ∧ s.fault = false ∧ s.latch = [] ∧
    s.cmd = encode (.fill 40) ∧ 40 + 3 ≤ ((List.replicate 43 [0, 1]).flatten).countP (0 < ·) :=
  ⟨by decide, rfl, rfl, rfl, rfl, rfl, rfl, by decide⟩

theorem witness_LaneCountIsUnobservable :
    200 < 2 ^ 64 ∧ (ready true .prompt).phase = .idle ∧ (ready true .prompt).seeded = true ∧
    (ready true .prompt).pace.takes 200 = 200 := by decide

/-- Two states alike in what counts, and not in the old buffer nor in the length registers. -/
theorem witness_FillIsAFunctionOfScheduleCounterAndLength :
    let s := ready true .prompt
    let t := { ready true .prompt with off := 5#64, out := { len := 5, cells := [(0, 0xff#8)] } }
    s.phase = .idle ∧ s.fault = false ∧ s.seeded = true ∧ s.pace = .prompt ∧ t.phase = .idle ∧ t.fault = false ∧
    t.seeded = true ∧ t.pace = .prompt ∧ s.rk = t.rk ∧ s.ctr = t.ctr ∧ s ≠ t := by decide

theorem witness_StatusBits :
    State.reset.seeded = (takeReset State.reset).seeded ∧ State.reset.phase = (takeReset State.reset).phase ∧
    State.reset.fault = (takeReset State.reset).fault ∧ State.reset.fcode = (takeReset State.reset).fcode := by decide

theorem witness_CommandWaitsUnlessReady :
    (inFill .f8 200 200 .prompt).phase ≠ .idle ∧ (raiseFault .notSeeded State.reset).fault = true := by decide

theorem witness_UnseededFillTakesNotSeeded :
    let s : State := { State.reset with cmd := 0x02#8 :: List.replicate 8 0#8 }
    s.rst = false ∧ s.phase = .idle ∧ s.fault = false ∧ s.seeded = false ∧
    decode (s.latch ++ s.cmd) = .command (.fill 0) [] := by decide

theorem witness_ReservedOpcodeTakesIllegalCommand :
    let s : State := { State.reset with cmd := [0x03#8, 0x01#8] }
    s.rst = false ∧ s.phase = .idle ∧ s.fault = false ∧ s.latch = [] ∧ s.cmd = 0x03#8 :: [0x01#8] ∧
    0x03#8 ≠ 0x01#8 ∧ 0x03#8 ≠ 0x02#8 := by decide

theorem witness_HaltIsLeftByResetAlone :
    (raiseFault .notSeeded State.reset).phase = .halt ∧ (raiseFault .notSeeded State.reset).rst = false ∧
    (hostResets (raiseFault .notSeeded State.reset)).phase = .halt ∧
    (hostResets (raiseFault .notSeeded State.reset)).rst = true := by decide

/-- One state for each clause: faulted (outside `HALT`, which no run reaches, since in `HALT` there is no next state),
unfaulted and staying so, a reserved opcode, an unseeded FILL. -/
theorem witness_FaultHasTwoCausesAndIsSticky :
    (let s : State := { State.reset with fault := true, fcode := .notSeeded }
     s.rst = false ∧ step s = .next s ∧ s.fault = true) ∧
    (State.reset.rst = false ∧ step State.reset = .next State.reset ∧ State.reset.fault = false) ∧
    (let s : State := { State.reset with cmd := [0x03#8] }
     s.rst = false ∧ s.fault = false ∧ ∃ t, step s = .next t ∧ t.fault = true ∧ t.fcode = .illegalCommand) ∧
    (let s : State := { State.reset with cmd := 0x02#8 :: List.replicate 8 0#8 }
     s.rst = false ∧ s.fault = false ∧ ∃ t, step s = .next t ∧ t.fault = true ∧ t.fcode = .notSeeded) :=
  ⟨⟨rfl, rfl, rfl⟩, ⟨rfl, rfl, rfl⟩, ⟨rfl, rfl, _, rfl, rfl, rfl⟩, rfl, rfl, _, rfl, rfl, rfl⟩

/-- One state for each clause: a seeded CORE's micro-step, a reset, a SEED committed. -/
theorem witness_SeededIsClearedByResetAlone :
    ((inFill .swap 0 0 .prompt).rst = false ∧ (inFill .swap 0 0 .prompt).seeded = true ∧
      step (inFill .swap 0 0 .prompt) = .next (swapStep (inFill .swap 0 0 .prompt))) ∧
    ((hostResets State.reset).rst = true ∧ step (hostResets State.reset) = .next (takeReset (hostResets State.reset))) ∧
    (let s := sdexpStep (acceptSeed ascending State.reset)
     s.rst = false ∧ s.seeded = false ∧ step s = .next (sdcommitStep s) ∧ (sdcommitStep s).seeded = true) :=
  ⟨⟨rfl, rfl, rfl⟩, ⟨rfl, rfl⟩, rfl, rfl, rfl, rfl⟩

theorem witness_ScheduleIsWrittenBySeedSwapAndResetAlone :
    let s : State := { inFill .swap 0 0 .prompt with nrk := Vector.replicate 11 1#128 }
    step s = .next (swapStep s) ∧ (swapStep s).rk ≠ s.rk := ⟨rfl, by decide⟩

theorem witness_ResetWinsInAnyPhase : (hostResets (filling 7)).rst = true ∧ (hostResets (filling 7)).phase = .f2 :=
  ⟨rfl, rfl⟩

theorem witness_ResetDuringFillLeavesACorrectPrefix :
    let s := afterAscending (.paced 7)
    let t := takeOutput Config.core (filling 7)
    40 < 2 ^ 64 ∧ s.phase = .idle ∧ s.seeded = true ∧ microRun Config.core 1 (acceptFill Config.core 40 s) = .next t ∧
    step (hostResets t) = .next (takeReset (hostResets t)) := ⟨by decide, rfl, rfl, rfl, rfl⟩

theorem witness_StepKeepsTheInvariant :
    (filling 7).Inv Config.core ∧ step (filling 7) = .next (takeOutput Config.core (filling 7)) := ⟨inv_filling 7, rfl⟩

theorem witness_OnlyHaltStops : (filling 0).Inv Config.core ∧ (raiseFault .notSeeded State.reset).Inv Config.core :=
  ⟨inv_filling 0, inv_raiseFault inv_reset (by decide) (by decide) rfl⟩

/-- Two states with the same public part and different secrets. -/
theorem witness_StepRevealsNoSecret :
    (ready true .prompt).publicView = ({ ready true .prompt with ctr := 1#128 } : State).publicView ∧
    ready true .prompt ≠ { ready true .prompt with ctr := 1#128 } := by decide

theorem witness_SeedValueIsNotRevealed :
    State.reset.publicView = State.reset.publicView ∧ ascending ≠ 0#256 := by decide

theorem witness_IdentificationReadsStatusAlone :
    (ready true .prompt).status = ({ ready true .prompt with ctr := 1#128 } : State).status := by decide

end Sys2Proof.Tests
end

section
/-! PROOFS. Blocks as numbers (spec/00_scope.md R13), and a whole FILL through the machine's own `step` (R17, spec/43_fill.md
R150, R152). -/

namespace Sys2Proof.Machine

open Sys2Proof

/-! ### The integer reading of a block -/

/-- Byte `i` is digit `i` of the block's value in base 256. -/
theorem byteAt_toNat (b : Block) (i : Nat) : (byteAt b i).toNat = val b / 2 ^ (8 * i) % 2 ^ 8 := by
  rw [byteAt, BitVec.extractLsb'_toNat, Nat.shiftRight_eq_div_pow, val]

/-- Word `j` is a slice of the block (R14). -/
theorem wordAt_toNat (b : Block) (j : Nat) : (wordAt b j).toNat = bitsOf b (32 * j + 31) (32 * j) := by
  rw [wordAt, BitVec.extractLsb'_toNat, Nat.shiftRight_eq_div_pow, bitsOf, val]
  congr 2
  omega

/-- The low `n` bytes add up to the value modulo `2^(8n)`. -/
theorem sum_byteAt (b : Block) (n : Nat) :
    ((List.range n).map fun i => (byteAt b i).toNat * 2 ^ (8 * i)).sum = val b % 2 ^ (8 * n) := by
  induction n with
  | zero => simp [Nat.mod_one]
  | succ n ih =>
    rw [List.range_succ, List.map_append, List.sum_append, ih, List.map_singleton, List.sum_singleton, byteAt_toNat,
      Nat.mul_succ, Nat.pow_add, Nat.mod_mul, Nat.mul_comm (2 ^ (8 * n))]

theorem blk_val (b : Block) : blk (val b) = b := val_inj (by rw [val_blk, Nat.mod_eq_of_lt (val_lt b)])

/-- Settles O1: the value by induction on the number of bytes, the bits and the words as slices. -/
theorem blockIntegerReadingIsLittleEndian : Obligations.BlockIntegerReadingIsLittleEndian := by
  refine ⟨fun b => ?_, val_lt, blk_val, val_blk, fun b k _ => ?_, fun _ _ _ _ => rfl, fun b j _ => wordAt_toNat b j⟩
  · rw [sum_byteAt, Nat.mod_eq_of_lt (val_lt b)]
  · rw [byteAt_getLsbD b (k / 8) (k % 8) (Nat.mod_lt _ (by decide)), Nat.div_add_mod]

/-! ### Consuming and accepting a FILL -/

/-- The decoder reads a FILL back from its encoding, whatever follows (R83, R91). -/
theorem decode_encode_fill {n : Nat} (hn : n < 2 ^ 64) (rest : List Byte) :
    decode (encode (.fill n) ++ rest) = .command (.fill n) rest := by
  rw [encode, List.cons_append, decode_fill, if_pos (by simp), List.take_left' (leBytes_length 8 n),
    List.drop_left' (leBytes_length 8 n), ofLEBytes_leBytes, Nat.mod_eq_of_lt (by omega)]

/-- With no command under way a step runs the command its bytes spell (R88). -/
theorem step_of_decode_command {s : State} {i : Instr} {rest : List Byte} (hr : s.rst = false) (hp : s.phase = .idle)
    (hf : s.fault = false) (hd : decode (s.latch ++ s.cmd) = .command i rest) :
    step s = exec i { s with latch := [], cmd := rest } := by
  have hfetch : fetch s = .run i { s with latch := [], cmd := rest } := by
    simp [fetch, State.cmdReady, hp, hf, hd]
  simp [step, hr, hp, hfetch]

/-- A prompt host sees a FILL as its command step (R140). -/
theorem exec_fill_prompt {n : Nat} {s : State} (hr : s.ready = true) (hs : s.seeded = true) (hp : s.pace = .prompt) :
    exec (.fill n) s = .next (fillCommand Config.core n s) := by
  simp [exec, execFill, hr, hs, hp]

/-- A pacing host sees a FILL accepted (R142). -/
theorem exec_fill_paced {n r : Nat} {s : State} (hr : s.ready = true) (hs : s.seeded = true) (hp : s.pace = .paced r) :
    exec (.fill n) s = .next (acceptFill Config.core n s) := by
  simp [exec, execFill, hr, hs, hp]

/-! ### The micro-steps of an accepted FILL, and the machine's steps -/

/-- The micro-steps of an accepted FILL whose bytes the host all takes end in the command step's state (R150, R152). -/
theorem microRun_acceptFill (c : Config) {n : Nat} {s : State} (hn : n < 2 ^ 64) (hs : s.phase = .idle)
    (hp : s.pace.takes n = n) :
    ∃ m, m ≤ blockCount n + 3 ∧
      microRun c m (acceptFill c n s) = .next { fillCommand c n s with pace := s.pace.after n } := by
  have hprog := fillProgress_accept c n s hn
  by_cases h0 : n = 0
  · subst h0
    refine ⟨3, by omega, ?_⟩
    rw [fillProgress_rekeyRun hprog hn hs (by simp), acceptFill_pace, Pace.after_zero]
  · have ho : (acceptFill c n s).phase.isOutput = true := select_isOutput c n (by omega)
    have hl : (acceptFill c n s).rem.toNat = n := lenOf_toNat n hn
    obtain ⟨m, u, hm, hrun, hu, hrk, hpace⟩ :=
      fillProgress_outputRun hn hs n _ hprog ho rfl (by omega) (by rw [hl]; exact hp)
    rw [hl] at hm hpace
    refine ⟨m + 3, by omega, ?_⟩
    rw [microRun_add c m 3 hrun, fillProgress_rekeyRun hu hn hs hrk, hpace, acceptFill_pace]

/-- A micro-step leaves `rst` and the command stream alone. -/
theorem microStep_keeps_command_side {c : Config} {s t : State} (h : microStep c s = .next t) :
    t.rst = s.rst ∧ t.cmd = s.cmd ∧ t.latch = s.latch := by
  rcases microStep_cases h with ⟨_, rfl⟩ | ⟨_, hout⟩ | ⟨_, _, rfl⟩ | ⟨_, rfl⟩ | ⟨_, rfl⟩ | ⟨_, rfl⟩ | ⟨_, rfl⟩
  case inr.inl =>
    obtain ⟨_, _, ⟨_, rfl⟩ | ⟨_, rfl⟩⟩ := outputStep_cases hout <;> simp
  all_goals exact ⟨rfl, rfl, rfl⟩

/-- Micro-steps in a row that have an end begin with one that has a next state. -/
theorem microRun_succ {c : Config} {m : Nat} {s t : State} (h : microRun c (m + 1) s = .next t) :
    ∃ u, microStep c s = .next u ∧ microRun c m u = .next t := by
  rw [microRun] at h
  cases hu : microStep c s with
  | next u => rw [hu] at h; exact ⟨u, rfl, h⟩
  | fault e => simp [hu] at h
  | refused e => simp [hu] at h

/-- A run whose first step has a next state goes on from there. -/
theorem run_succ {M : Host.Core} {s t : M.State} (h : M.step s = .next t) (m : Nat) : M.run (m + 1) s = M.run m t := by
  simp only [Host.Core.run, h]

/-- Where micro-steps lead, so do the machine's own steps, and no more of them: as soon as the command is over the run is
cut off, since in `IDLE` micro-steps change nothing while a step would consume the next command. -/
theorem core_run_of_microRun {m : Nat} {s t : State} (h : microRun Config.core m s = .next t) (hr : s.rst = false) :
    ∃ k, k ≤ m ∧ Host.Core.run Sys2Proof.core k s = .next t := by
  induction m generalizing s with
  | zero => exact ⟨0, le_refl 0, h⟩
  | succ m ih =>
    by_cases hs : s.phase = .idle
    · exact ⟨0, Nat.zero_le _, (microRun_idle _ _ hs).symm.trans h⟩
    · obtain ⟨u, hu, hrun⟩ := microRun_succ h
      obtain ⟨k, hk, hcore⟩ := ih hrun ((microStep_keeps_command_side hu).1.trans hr)
      exact ⟨k + 1, by omega, (run_succ (M := Sys2Proof.core) ((step_micro hr hs).trans hu) k).trans hcore⟩

/-- Settles O40: consumption and acceptance are one step, and the micro-steps after it are the machine's. -/
theorem pacedFillRunEndsWhereTheCommandStepEnds : Obligations.PacedFillRunEndsWhereTheCommandStepEnds := by
  intro n r s rest hn hnr hrst hphase hfault hseeded hlatch hcmd hpace
  have hfirst : step s = .next (acceptFill Config.core n { s with latch := [], cmd := rest }) := by
    rw [step_of_decode_command hrst hphase hfault (by rw [hlatch, hcmd]; exact decode_encode_fill hn rest)]
    exact exec_fill_paced ((ready_iff _).2 ⟨hphase, hfault⟩) hseeded hpace
  obtain ⟨m, hm, hrun⟩ := microRun_acceptFill Config.core (s := { s with latch := [], cmd := rest }) hn hphase
    (by rw [hpace]; exact Nat.min_eq_right hnr)
  obtain ⟨k, hk, hcore⟩ := core_run_of_microRun hrun hrst
  refine ⟨k + 1, _, by omega, exec_fill_prompt ((ready_iff _).2 ⟨hphase, hfault⟩) hseeded rfl, ?_⟩
  rw [run_succ (M := Sys2Proof.core) hfirst, hcore, hpace, ← hlatch]
  rfl

end Sys2Proof.Machine
end

section
/-! PROOFS. What every step keeps (spec/10_state.md R20 to R43): the invariant, the causes of a fault, what writes
`SEEDED` and `RK`, the values after reset, and the bits of `STATUS`. -/

namespace Sys2Proof.Machine

open Sys2Proof

/-! ### The invariant -/

/-- The decoder answers only commands the encoding can express (R82, R83). -/
theorem decode_wellFormed {bs rest : List Byte} {i : Instr} (h : decode bs = .command i rest) : i.WellFormed := by
  cases i with
  | seed x => exact trivial
  | fill n => exact decode_fill_lt h

/-- A command's meaning, where its bytes have all been consumed. -/
theorem inv_exec {i : Instr} {s t : State} (h : s.Inv Config.core) (hr : s.ready = true) (hl : s.latch = [])
    (hw : i.WellFormed) (hx : exec i s = .next t) : t.Inv Config.core := by
  cases i with
  | seed x =>
    obtain ⟨-, rfl⟩ | ⟨-, -, rfl⟩ | ⟨-, -, rfl⟩ := execSeed_cases hx
    · exact h
    · exact inv_seedCommand h hr
    · exact inv_acceptSeed h hr hl
  | fill n =>
    obtain ⟨-, rfl⟩ | ⟨-, -, rfl⟩ | ⟨-, hs, -, rfl⟩ | ⟨-, hs, -, rfl⟩ := execFill_cases hx
    · exact h
    · exact inv_raiseFault h hr (by decide) hl
    · exact inv_fillCommand h hr hs
    · exact inv_acceptFill h hr hs hl hw

/-- Settles O55, case by case of what a step can do. -/
theorem stepKeepsTheInvariant : Obligations.StepKeepsTheInvariant := by
  intro s t h hst
  rcases step_cases hst with ⟨-, rfl⟩ | ⟨-, -, -, rfl⟩ | ⟨-, hr, i, rest, hd, hx⟩ | ⟨-, hr, op, rest, -, rfl⟩ |
    ⟨-, hr, hd, rfl⟩ | ⟨-, -, hm⟩
  · exact inv_takeReset h
  · exact h
  · exact inv_exec (inv_fetched h hr [] rest (by simp)) hr rfl (decode_wellFormed hd) hx
  · exact inv_raiseFault (inv_fetched h hr [] rest (by simp)) hr (by decide) rfl
  · exact inv_fetched h hr _ [] fun _ => hd
  · exact inv_microStep h hm

/-- Settles O54: every clause is about zero registers, an idle phase or an empty output space. -/
theorem invariantHoldsAtReset : Obligations.InvariantHoldsAtReset := by
  constructor <;> simp [State.reset, Phase.isRest, Phase.isOutput, Phase.isFill, State.Erased]

/-! ### Faults -/

/-- An output micro-step, whole or cut short by the host, keeps every register outside its regime's own (R148). -/
theorem outputStep_sameOutside {c : Config} {s t : State} (h : outputStep c s = .next t) : SameOutsideOutput s t := by
  obtain ⟨-, -, ⟨-, rfl⟩ | ⟨-, rfl⟩⟩ := outputStep_cases h <;> simp [SameOutsideOutput]

/-- No micro-step takes a fault or ends one (R183). -/
theorem microStep_keeps_fault {c : Config} {s t : State} (h : microStep c s = .next t) :
    t.fault = s.fault ∧ t.fcode = s.fcode := by
  rcases microStep_cases h with ⟨-, rfl⟩ | ⟨-, hout⟩ | ⟨-, -, rfl⟩ | ⟨-, rfl⟩ | ⟨-, rfl⟩ | ⟨-, rfl⟩ | ⟨-, rfl⟩
  case inr.inl =>
    obtain ⟨-, -, hf, hc, -⟩ := outputStep_sameOutside hout
    exact ⟨hf, hc⟩
  all_goals exact ⟨rfl, rfl⟩

/-- A command's meaning leaves `FAULT` and `FCODE`, but for a FILL on an unseeded CORE (R182). -/
theorem exec_fault_cases {i : Instr} {s t : State} (h : exec i s = .next t) :
    (t.fault = s.fault ∧ t.fcode = s.fcode) ∨
    (s.ready = true ∧ s.seeded = false ∧ (∃ n, i = .fill n) ∧ t = raiseFault .notSeeded s) := by
  cases i with
  | seed x =>
    left
    obtain ⟨-, rfl⟩ | ⟨-, -, rfl⟩ | ⟨-, -, rfl⟩ := execSeed_cases h <;> simp
  | fill n =>
    obtain ⟨-, rfl⟩ | ⟨hr, hs, rfl⟩ | ⟨-, -, -, rfl⟩ | ⟨-, -, -, rfl⟩ := execFill_cases h
    case inr.inl => exact .inr ⟨hr, hs, ⟨n, rfl⟩, rfl⟩
    all_goals left; simp

/-- A step without reset leaves `FAULT` and `FCODE`, or raises one of the two faults where it consumed the bytes that
cause it (R181, R182). -/
theorem step_fault_cases {s t : State} (hrst : s.rst = false) (h : step s = .next t) :
    (t.fault = s.fault ∧ t.fcode = s.fcode) ∨
    (s.ready = true ∧ ∃ op rest, decode (s.latch ++ s.cmd) = .illegal op rest ∧
      t = raiseFault .illegalCommand { s with latch := [], cmd := rest }) ∨
    (s.ready = true ∧ s.seeded = false ∧ ∃ n rest, decode (s.latch ++ s.cmd) = .command (.fill n) rest ∧
      t = raiseFault .notSeeded { s with latch := [], cmd := rest }) := by
  rcases step_cases h with ⟨hr, -⟩ | ⟨-, -, -, rfl⟩ | ⟨-, -, i, rest, hd, hx⟩ | ⟨-, hy, hill⟩ | ⟨-, -, -, rfl⟩ |
    ⟨-, -, hm⟩
  · simp [hrst] at hr
  · exact .inl ⟨rfl, rfl⟩
  · obtain hsame | ⟨hy, hs, ⟨n, rfl⟩, rfl⟩ := exec_fault_cases hx
    · exact .inl hsame
    · exact .inr (.inr ⟨hy, hs, n, rest, hd, rfl⟩)
  · exact .inr (.inl ⟨hy, hill⟩)
  · exact .inl ⟨rfl, rfl⟩
  · exact .inl (microStep_keeps_fault hm)

/-- Settles O49: a step that does not leave `FAULT` and `FCODE` alone raised a fault in a ready state, and `raiseFault`
writes three registers only. -/
theorem faultHasTwoCausesAndIsSticky : Obligations.FaultHasTwoCausesAndIsSticky := by
  intro s t hrst hst
  obtain ⟨hf, hc⟩ | ⟨hr, op, rest, hd, rfl⟩ | ⟨hr, hs, n, rest, hd, rfl⟩ := step_fault_cases hrst hst
  · refine ⟨fun h => ⟨hf.trans h, hc⟩, fun _ _ => hc, fun h h' => ?_⟩
    simp [hf, h] at h'
  · obtain ⟨hp, hf⟩ := (ready_iff s).1 hr
    exact ⟨by simp [hf], by simp, fun _ _ => ⟨hp, rfl, rfl, rfl, rfl, rfl, .inl ⟨rfl, op, rest, hd⟩⟩⟩
  · obtain ⟨hp, hf⟩ := (ready_iff s).1 hr
    exact ⟨by simp [hf], by simp, fun _ _ => ⟨hp, rfl, rfl, rfl, rfl, rfl, .inr ⟨rfl, hs, n, rest, hd⟩⟩⟩

/-! ### `SEEDED` and `RK` -/

/-- What a micro-step does to `SEEDED`: set in `SDCOMMIT`, else left (R25, R170). -/
theorem microStep_seeded {c : Config} {s t : State} (h : microStep c s = .next t) :
    t.seeded = s.seeded ∨ (s.phase = .sdcommit ∧ t.seeded = true) := by
  rcases microStep_cases h with ⟨-, rfl⟩ | ⟨-, hout⟩ | ⟨-, -, rfl⟩ | ⟨-, rfl⟩ | ⟨-, rfl⟩ | ⟨-, rfl⟩ | ⟨hp, rfl⟩
  · exact .inl rfl
  · obtain ⟨-, hs, -⟩ := outputStep_sameOutside hout
    exact .inl hs
  · exact .inl rfl
  · exact .inl rfl
  · exact .inl rfl
  · exact .inl rfl
  · exact .inr ⟨hp, rfl⟩

/-- What a command's meaning does to `SEEDED`: SEED may set it, else it is left (R25). -/
theorem exec_seeded {i : Instr} {s t : State} (h : exec i s = .next t) :
    t.seeded = s.seeded ∨ ((∃ x, i = .seed x) ∧ t.seeded = true) := by
  cases i with
  | seed x =>
    obtain ⟨-, rfl⟩ | ⟨-, -, rfl⟩ | ⟨-, -, rfl⟩ := execSeed_cases h
    · exact .inl rfl
    · exact .inr ⟨⟨x, rfl⟩, rfl⟩
    · exact .inl rfl
  | fill n =>
    left
    obtain ⟨-, rfl⟩ | ⟨-, -, rfl⟩ | ⟨-, -, -, rfl⟩ | ⟨-, -, -, rfl⟩ := execFill_cases h <;> simp

/-- What a step without reset does to `SEEDED`: a SEED's completion sets it, else it is left (R25). -/
theorem step_seeded {s t : State} (hrst : s.rst = false) (h : step s = .next t) :
    t.seeded = s.seeded ∨ (t.seeded = true ∧
      (s.phase = .sdcommit ∨ s.phase = .idle ∧ ∃ x rest, decode (s.latch ++ s.cmd) = .command (.seed x) rest)) := by
  rcases step_cases h with ⟨hr, -⟩ | ⟨-, -, -, rfl⟩ | ⟨-, hy, i, rest, hd, hx⟩ | ⟨-, -, op, rest, -, rfl⟩ |
    ⟨-, -, -, rfl⟩ | ⟨-, -, hm⟩
  · simp [hrst] at hr
  · exact .inl rfl
  · obtain hsame | ⟨⟨x, rfl⟩, hset⟩ := exec_seeded hx
    · exact .inl hsame
    · exact .inr ⟨hset, .inr ⟨((ready_iff s).1 hy).1, x, rest, hd⟩⟩
  · exact .inl rfl
  · exact .inl rfl
  · obtain hsame | ⟨hp, hset⟩ := microStep_seeded hm
    · exact .inl hsame
    · exact .inr ⟨hset, .inl hp⟩

/-- A step with `rst` asserted is the reset (R187, R200). -/
theorem step_reset {s : State} (h : s.rst = true) : step s = .next (takeReset s) := by
  simp [step, h]

/-- Settles O50: without reset by what a step does to `SEEDED`, with it by what the reset does. -/
theorem seededIsClearedByResetAlone : Obligations.SeededIsClearedByResetAlone := by
  refine ⟨fun s t hrst hs hst => ?_, fun s t hrst hst => ?_, fun s t hrst hs hst ht => ?_, rfl⟩
  · obtain hsame | ⟨hset, -⟩ := step_seeded hrst hst
    · exact hsame.trans hs
    · exact hset
  · rw [step_reset hrst, Host.Outcome.next.injEq] at hst
    rw [← hst, takeReset_seeded]
  · obtain hsame | ⟨-, hcause⟩ := step_seeded hrst hst
    · simp [hsame, hs] at ht
    · exact hcause

/-- What a micro-step does to `RK`: written in `SWAP` and `SDCOMMIT`, else left (R20). -/
theorem microStep_rk {c : Config} {s t : State} (h : microStep c s = .next t) :
    t.rk = s.rk ∨ s.phase = .swap ∨ s.phase = .sdcommit := by
  rcases microStep_cases h with ⟨-, rfl⟩ | ⟨-, hout⟩ | ⟨-, -, rfl⟩ | ⟨-, rfl⟩ | ⟨hp, rfl⟩ | ⟨-, rfl⟩ | ⟨hp, rfl⟩
  · exact .inl rfl
  · obtain ⟨hk, -⟩ := outputStep_sameOutside hout
    exact .inl hk
  · exact .inl rfl
  · exact .inl rfl
  · exact .inr (.inl hp)
  · exact .inl rfl
  · exact .inr (.inr hp)

/-- A command's meaning writes `RK` for a prompt host only: a pacing one sees an acceptance (R17). -/
theorem exec_rk {i : Instr} {s t : State} (h : exec i s = .next t) : t.rk = s.rk ∨ s.pace = .prompt := by
  cases i with
  | seed x =>
    obtain ⟨-, rfl⟩ | ⟨-, hp, rfl⟩ | ⟨-, -, rfl⟩ := execSeed_cases h
    · exact .inl rfl
    · exact .inr hp
    · exact .inl rfl
  | fill n =>
    obtain ⟨-, rfl⟩ | ⟨-, -, rfl⟩ | ⟨-, -, hp, rfl⟩ | ⟨-, -, -, rfl⟩ := execFill_cases h
    · exact .inl rfl
    · exact .inl rfl
    · exact .inr hp
    · exact .inl rfl

/-- Settles O51, case by case of what a step can do. -/
theorem scheduleIsWrittenBySeedSwapAndResetAlone : Obligations.ScheduleIsWrittenBySeedSwapAndResetAlone := by
  intro s t hst hne
  rcases step_cases hst with ⟨hr, -⟩ | ⟨-, -, -, rfl⟩ | ⟨-, hy, i, rest, hd, hx⟩ | ⟨-, -, op, rest, -, rfl⟩ |
    ⟨-, -, -, rfl⟩ | ⟨-, -, hm⟩
  · exact .inl hr
  · exact absurd rfl hne
  · have hp := (exec_rk hx).resolve_left hne
    exact .inr (.inr (.inr ⟨((ready_iff s).1 hy).1, hp, i, rest, hd⟩))
  · exact absurd rfl hne
  · exact absurd rfl hne
  · obtain hp | hp := (microStep_rk hm).resolve_left hne
    · exact .inr (.inl hp)
    · exact .inr (.inr (.inl hp))

/-! ### Reset values and `STATUS` -/

/-- Settles O2: the vectors are replicated zeros, and the other values stand in the definition. -/
theorem resetStateHasTheStatedValues : Obligations.ResetStateHasTheStatedValues := by
  exact ⟨fun i => Vector.getElem_replicate _, rfl, rfl, rfl, rfl, rfl, rfl, rfl,
    fun i => Vector.getElem_replicate _, rfl, rfl, fun i => Vector.getElem_replicate _, rfl, rfl⟩

/-- `BUSY` (R27). -/
theorem busy_iff (s : State) : s.busy = true ↔ s.phase ≠ .idle ∧ s.phase ≠ .halt := by
  simp [State.busy]

/-- Settles O44: each bit is a slice of the concatenation that `STATUS` is. -/
theorem statusBits : Obligations.StatusBits := by
  refine ⟨fun s => ⟨?_, ?_, ?_, ?_, ?_⟩, fun s t hs hp hf hc => ?_⟩
  · simp only [State.status, BitVec.getLsbD_append]; simp
  · rw [← busy_iff]
    simp only [State.status, BitVec.getLsbD_append]; simp
  · simp only [State.status, BitVec.getLsbD_append]; simp
  · exact (extract_high _ _ 2 2).trans ((extract_high _ _ 1 2).trans ((extract_high _ _ 0 2).trans (extract_low _ _)))
  · exact (extract_high _ _ 4 3).trans ((extract_high _ _ 3 3).trans
      ((extract_high _ _ 2 3).trans ((extract_high _ _ 0 3).trans (extract_whole _))))
  · simp only [State.status, State.busy, hs, hp, hf, hc]

end Sys2Proof.Machine
end

section
/-! PROOFS. What the host sees of a step does not depend on `RK`, `CTR`, the ephemeral registers or the output bytes
(spec/10_state.md R23, R28, spec/60_exceptions.md R191): `publicView` of each operation's result is a function of
`publicView` of the state. -/

namespace Sys2Proof.Machine

open Sys2Proof

/-! ### The public part after each operation -/

theorem publicView_raiseFault (code : FCode) (s : State) :
    (raiseFault code s).publicView = { s.publicView with fault := true, fcode := code, phase := .halt } := rfl

theorem publicView_takeReset (s : State) :
    (takeReset s).publicView =
      { State.reset.publicView with
        cmd := s.publicView.cmd
        pace := s.publicView.pace
        outLen := s.publicView.outLen
        outOffsets := s.publicView.outOffsets } := rfl

theorem publicView_seedCommand (x : Seed) (s : State) :
    (seedCommand x s).publicView = { s.publicView with seeded := true, off := 0#64 } := rfl

theorem publicView_acceptSeed (x : Seed) (s : State) :
    (acceptSeed x s).publicView = { s.publicView with phase := .sdexp } := rfl

theorem publicView_acceptFill (c : Config) (n : Nat) (s : State) :
    (acceptFill c n s).publicView =
      { s.publicView with
        rem := lenOf n, off := 0#64, sent := 0, outLen := n, outOffsets := [], phase := select c n } := rfl

theorem publicView_rkencWrites (s : State) :
    (rkencWrites s).publicView = { s.publicView with phase := .rkexp } := rfl

theorem publicView_rkexpStep (s : State) :
    (rkexpStep s).publicView = { s.publicView with phase := .swap } := rfl

theorem publicView_swapStep (s : State) :
    (swapStep s).publicView = { s.publicView with phase := .idle } := rfl

theorem publicView_sdexpStep (s : State) :
    (sdexpStep s).publicView = { s.publicView with phase := .sdcommit } := rfl

theorem publicView_sdcommitStep (s : State) :
    (sdcommitStep s).publicView = { s.publicView with seeded := true, off := 0#64, phase := .idle } := rfl

/-- The offsets stay apart: they are `takeOutput_publicView`'s. -/
theorem publicView_takeOutput (c : Config) (s : State) :
    (takeOutput c s).publicView =
      { s.publicView with
        pace := s.pace.after s.took
        sent := s.sent + s.took
        outOffsets := (takeOutput c s).out.cells.map Prod.fst } := rfl

theorem publicView_commitOutput (c : Config) (s : State) :
    (commitOutput c s).publicView =
      { s.publicView with
        off := s.off + BitVec.ofNat 64 s.outputCount
        rem := s.rem - BitVec.ofNat 64 s.outputCount
        phase := select c (s.rem - BitVec.ofNat 64 s.outputCount).toNat
        sent := 0 } := rfl

/-- The offsets stay apart: they are `fillCommand_publicView`'s. -/
theorem publicView_fillCommand (c : Config) (n : Nat) (s : State) :
    (fillCommand c n s).publicView =
      { s.publicView with
        rem := 0#64
        off := lenOf n
        sent := 0
        outLen := n
        outOffsets := (fillCommand c n s).out.cells.map Prod.fst } := rfl

/-! ### States alike in their public part -/

section
variable {s t : State} (h : s.publicView = t.publicView)
include h

theorem phase_eq_of_publicView : s.phase = t.phase := congrArg PublicView.phase h

theorem rst_eq_of_publicView : s.rst = t.rst := congrArg PublicView.rst h

theorem ready_eq_of_publicView : s.ready = t.ready := by
  have hf : s.fault = t.fault := congrArg PublicView.fault h
  rw [State.ready, State.ready, State.cmdReady, State.cmdReady, phase_eq_of_publicView h, hf]

/-- The bytes to decode are the host's own. -/
theorem presented_eq_of_publicView : s.latch ++ s.cmd = t.latch ++ t.cmd :=
  congrArg₂ (· ++ ·) (congrArg PublicView.latch h) (congrArg PublicView.cmd h)

theorem consume_publicView (l cm : List Byte) :
    ({ s with latch := l, cmd := cm } : State).publicView = ({ t with latch := l, cmd := cm } : State).publicView :=
  congrArg (fun v : PublicView => { v with latch := l, cmd := cm }) h

theorem outputCount_eq_of_publicView : s.outputCount = t.outputCount := by
  have hr : s.rem = t.rem := congrArg PublicView.rem h
  rw [State.outputCount, State.outputCount, phase_eq_of_publicView h, hr]

theorem took_eq_of_publicView : s.took = t.took := by
  have hp : s.pace = t.pace := congrArg PublicView.pace h
  have hs : s.sent = t.sent := congrArg PublicView.sent h
  rw [State.took, State.took, outputCount_eq_of_publicView h, hp, hs]

/-- The length of a stream depends on the number of blocks alone. -/
theorem outputBytes_length_eq_of_publicView (c : Config) : (s.outputBytes c).length = (t.outputBytes c).length := by
  rw [State.outputBytes, State.outputBytes, List.length_take, List.length_take, streamBytes_length, streamBytes_length,
    outputCount_eq_of_publicView h, phase_eq_of_publicView h]

/-- A transfer writes the same offsets, whatever bytes it stores there. -/
theorem takeOutput_publicView (c : Config) : (takeOutput c s).publicView = (takeOutput c t).publicView := by
  have hs : s.sent = t.sent := congrArg PublicView.sent h
  have ho : s.off = t.off := congrArg PublicView.off h
  have hp : s.pace = t.pace := congrArg PublicView.pace h
  have hk := took_eq_of_publicView h
  have hoff : (takeOutput c s).out.cells.map Prod.fst = (takeOutput c t).out.cells.map Prod.fst := by
    simp only [takeOutput_out, OutSpace.write_cells, hs, ho, hk]
    refine Memory.offsets_writeBytes _ _ _ _ _ (congrArg PublicView.outOffsets h) ?_
    simp only [List.length_take, List.length_drop, outputBytes_length_eq_of_publicView h c]
  rw [publicView_takeOutput, publicView_takeOutput, h, hs, hp, hk, hoff]

theorem commitOutput_publicView (c : Config) : (commitOutput c s).publicView = (commitOutput c t).publicView := by
  have hr : s.rem = t.rem := congrArg PublicView.rem h
  have ho : s.off = t.off := congrArg PublicView.off h
  rw [publicView_commitOutput, publicView_commitOutput, h, outputCount_eq_of_publicView h, hr, ho]

theorem fillCommand_publicView (c : Config) (n : Nat) :
    (fillCommand c n s).publicView = (fillCommand c n t).publicView := by
  have hoff : (fillCommand c n s).out.cells.map Prod.fst = (fillCommand c n t).out.cells.map Prod.fst :=
    Memory.offsets_writeBytes [] [] 0 _ _ rfl (by simp)
  rw [publicView_fillCommand, publicView_fillCommand, h, hoff]

/-! ### Outcomes alike in their public part -/

/-- Whether an output micro-step is enabled, inside the space and complete is told by public registers. -/
theorem samePublic_outputStep (c : Config) : SamePublic (outputStep c s) (outputStep c t) := by
  have hr : s.rem = t.rem := congrArg PublicView.rem h
  have hs : s.sent = t.sent := congrArg PublicView.sent h
  have ho : s.off = t.off := congrArg PublicView.off h
  have hl : s.out.len = t.out.len := congrArg PublicView.outLen h
  simp only [outputStep, OutSpace.admits, decide_eq_true_eq, phase_eq_of_publicView h, hr, hs, ho, hl,
    took_eq_of_publicView h, outputCount_eq_of_publicView h]
  split_ifs
  · exact commitOutput_publicView (takeOutput_publicView h c) c
  · exact takeOutput_publicView h c
  · rfl
  · rfl

theorem samePublic_rkencStep : SamePublic (rkencStep s) (rkencStep t) := by
  have hr : s.rem = t.rem := congrArg PublicView.rem h
  simp only [rkencStep, hr]
  split_ifs
  · simp only [SamePublic, publicView_rkencWrites, h]
  · rfl

theorem samePublic_microStep (c : Config) : SamePublic (microStep c s) (microStep c t) := by
  have hp := phase_eq_of_publicView h
  cases ht : t.phase <;> simp only [microStep, hp, ht]
  case idle => exact h
  case f8 | f2 | f1 | tail => exact samePublic_outputStep h c
  case rkenc => exact samePublic_rkencStep h
  case rkexp | swap | sdexp | sdcommit =>
    simp only [SamePublic, publicView_rkexpStep, publicView_swapStep, publicView_sdexpStep, publicView_sdcommitStep, h]
  case halt => rfl

/-- Whether a SEED waits, runs or is accepted is told by public registers, and none of these shows the seed (R175). -/
theorem samePublic_execSeed (x y : Seed) : SamePublic (execSeed x s) (execSeed y t) := by
  have hp : s.pace = t.pace := congrArg PublicView.pace h
  simp only [execSeed, ready_eq_of_publicView h, hp]
  split
  · split
    · simp only [SamePublic, publicView_seedCommand, h]
    · simp only [SamePublic, publicView_acceptSeed, h]
  · exact h

theorem samePublic_execFill (n : Nat) : SamePublic (execFill n s) (execFill n t) := by
  have hp : s.pace = t.pace := congrArg PublicView.pace h
  have hs : s.seeded = t.seeded := congrArg PublicView.seeded h
  simp only [execFill, ready_eq_of_publicView h, hp, hs]
  split
  · split
    · split
      · exact fillCommand_publicView h _ n
      · simp only [SamePublic, publicView_acceptFill, h]
    · simp only [SamePublic, publicView_raiseFault, h]
  · exact h

theorem samePublic_exec (i : Instr) : SamePublic (exec i s) (exec i t) := by
  cases i with
  | seed x => exact samePublic_execSeed h x x
  | fill n => exact samePublic_execFill h n

end

/-- Settles O58: SEED's meaning on either side. -/
theorem seedValueIsNotRevealed : Obligations.SeedValueIsNotRevealed :=
  fun x y _ _ h => samePublic_execSeed h x y

/-! ### A step with no command under way -/

/-- A CORE that is idle and not ready has faulted, and waits for its reset (R88, R184). -/
theorem step_of_not_ready {s : State} (hr : s.rst = false) (hp : s.phase = .idle) (hy : s.ready = false) :
    step s = .next s := by
  have hfetch : fetch s = .wait s := by simp [fetch, show s.cmdReady = false from hy]
  simp [step, hr, hp, hfetch]

/-- A reserved opcode is consumed and faults (R86, R181). -/
theorem step_of_decode_illegal {s : State} {op : Byte} {rest : List Byte} (hr : s.rst = false) (hy : s.ready = true)
    (hd : decode (s.latch ++ s.cmd) = .illegal op rest) :
    step s = .next (raiseFault .illegalCommand { s with latch := [], cmd := rest }) := by
  have hfetch : fetch s = .reserved { s with latch := [], cmd := rest } := by
    simp [fetch, show s.cmdReady = true from hy, hd]
  simp [step, hr, ((ready_iff s).1 hy).1, hfetch]

/-- The bytes of a command that is not complete go to the latch (R88 step 3, R91). -/
theorem step_of_decode_incomplete {s : State} (hr : s.rst = false) (hy : s.ready = true)
    (hd : decode (s.latch ++ s.cmd) = .incomplete) :
    step s = .next { s with latch := s.latch ++ s.cmd, cmd := [] } := by
  have hfetch : fetch s = .wait { s with latch := s.latch ++ s.cmd, cmd := [] } := by
    simp [fetch, show s.cmdReady = true from hy, hd]
  simp [step, hr, ((ready_iff s).1 hy).1, hfetch]

/-- What CORE consumes, and whether it runs it, faults or waits, is told by the host's own bytes. -/
theorem samePublic_step_ready {s t : State} (h : s.publicView = t.publicView) (hr : s.rst = false)
    (hy : s.ready = true) : SamePublic (step s) (step t) := by
  have hrt : t.rst = false := (rst_eq_of_publicView h).symm.trans hr
  have hyt : t.ready = true := (ready_eq_of_publicView h).symm.trans hy
  have hbytes := presented_eq_of_publicView h
  obtain ⟨hp, hf⟩ := (ready_iff s).1 hy
  obtain ⟨hpt, hft⟩ := (ready_iff t).1 hyt
  cases hd : decode (s.latch ++ s.cmd) with
  | command i rest =>
    rw [step_of_decode_command hr hp hf hd, step_of_decode_command hrt hpt hft (hbytes ▸ hd)]
    exact samePublic_exec (consume_publicView h [] rest) i
  | illegal op rest =>
    rw [step_of_decode_illegal hr hy hd, step_of_decode_illegal hrt hyt (hbytes ▸ hd)]
    simp only [SamePublic, publicView_raiseFault, consume_publicView h]
  | incomplete =>
    rw [step_of_decode_incomplete hr hy hd, step_of_decode_incomplete hrt hyt (hbytes ▸ hd), hbytes]
    exact consume_publicView h _ []

/-- Settles O57: a step is a reset, a micro-step, a wait or a consumption, and the public part tells which. -/
theorem stepRevealsNoSecret : Obligations.StepRevealsNoSecret := by
  intro s t h
  have hrst := rst_eq_of_publicView h
  have hphase := phase_eq_of_publicView h
  have hready := ready_eq_of_publicView h
  cases hr : s.rst with
  | true =>
    rw [step_reset hr, step_reset (hrst ▸ hr)]
    simp only [SamePublic, publicView_takeReset, h]
  | false =>
    by_cases hp : s.phase = .idle
    · cases hy : s.ready with
      | true => exact samePublic_step_ready h hr hy
      | false =>
        rw [step_of_not_ready hr hp hy, step_of_not_ready (hrst ▸ hr) (hphase ▸ hp) (hready ▸ hy)]
        exact h
    · rw [step_micro hr hp, step_micro (hrst ▸ hr) (hphase ▸ hp)]
      exact samePublic_microStep h _

end Sys2Proof.Machine
end

section
/-! PROOFS. The two byte streams while a command is under way (spec/20_memory.md R50, R65, R66, R71): `cmd` stands
still, and a host that lets CORE wait for `out` delays a FILL and changes nothing else. -/

namespace Sys2Proof.Machine

open Sys2Proof

/-! ### The command stream -/

/-- Settles O10: with a command under way a step is a micro-step, and none reads `cmd` or the latch. -/
theorem busyCoreConsumesNoCommandByte : Obligations.BusyCoreConsumesNoCommandByte := by
  intro s t hrst hbusy hst
  rw [step_micro hrst hbusy] at hst
  exact (microStep_keeps_command_side hst).2

/-! ### An output micro-step, however it is cut up -/

theorem Phase.isFill_of_isOutput {p : Phase} (h : p.isOutput = true) : p.isFill = true := by
  cases p <;> simp_all [Phase.isOutput, Phase.isFill]

/-- What the invariant says in an output phase: bytes of the micro-step are left, and all of them lie in its blocks, in
`REM`, and so in the output space. -/
theorem State.Inv.outputRoom {c : Config} {s : State} (h : s.Inv c) (ho : s.phase.isOutput = true) :
    s.phase = select c s.rem.toNat ∧ s.sent < s.outputCount ∧ s.outputCount ≤ 16 * outputBlocks s.phase ∧
    s.outputCount ≤ s.rem.toNat ∧ s.off.toNat + s.rem.toNat = s.out.len ∧ s.out.len < 2 ^ 64 := by
  obtain ⟨hsel, hsent⟩ := h.outputEnabled ho
  obtain ⟨-, hlen, hlt⟩ := h.fillLength (Phase.isFill_of_isOutput ho)
  obtain ⟨-, hblocks, hshape⟩ := outputCount_shape hsel ho
  refine ⟨hsel, hsent, hblocks, ?_, hlen, hlt⟩
  rcases hshape with ⟨-, hmore⟩ | ⟨hlast, -⟩ <;> omega

/-- The host takes no more than what is left of the micro-step. -/
theorem State.sent_add_took_le {s : State} (h : s.sent ≤ s.outputCount) : s.sent + s.took ≤ s.outputCount := by
  have : s.took ≤ s.outputCount - s.sent := Pace.takes_le _ _
  omega

/-- A host with room takes something of what is offered. -/
theorem Pace.takes_pos {p : Pace} {n : Nat} (hp : p ≠ .paced 0) (hn : 0 < n) : 0 < p.takes n := by
  cases p with
  | prompt => exact hn
  | paced r => exact Nat.lt_min.2 ⟨Nat.pos_of_ne_zero fun h => hp (by rw [h]), hn⟩

/-- Byte `16j + i` of the micro-step under way is byte `i` of the block at `CTR + j` (R136). -/
theorem outputBytes_getElem? {c : Config} {s : State} {j i : Nat} (hle : s.outputCount ≤ 16 * outputBlocks s.phase)
    (hi : i < 16) (hji : 16 * j + i < s.outputCount) :
    (s.outputBytes c)[16 * j + i]? = some (byteAt (encBlk s.rk (ctrAdd c.ctrIncWidth s.ctr j)) i) := by
  rw [State.outputBytes, List.getElem?_take_of_lt hji, streamBytes_getElem? _ _ _ _ _ _ (by omega) hi, outBlock]

/-- The transfer puts byte `x` of the micro-step at offset `OFF + x`, for the bytes taken, and touches no other offset
(R55, R66). -/
theorem takeOutput_read {c : Config} {s : State} (hb : (s.outputBytes c).length = s.outputCount)
    (hs : s.sent ≤ s.outputCount) (a : Nat) :
    (takeOutput c s).out.read a =
      if s.off.toNat + s.sent ≤ a ∧ a < s.off.toNat + s.sent + s.took then (s.outputBytes c)[a - s.off.toNat]?
      else s.out.read a := by
  have hk := State.sent_add_took_le hs
  have hl : (((s.outputBytes c).drop s.sent).take s.took).length = s.took := by
    rw [List.length_take, List.length_drop]; omega
  rw [takeOutput_out, OutSpace.read_write, hl]
  split_ifs with ha
  · rw [List.getElem?_take_of_lt (by omega), List.getElem?_drop]
    congr 1
    omega
  · rfl

/-- A transfer of no byte is none. -/
theorem takeOutput_of_took_zero {c : Config} {s : State} (h : s.took = 0) : takeOutput c s = s := by
  simp [takeOutput, h]

/-- `OFF` and `REM` at the end of a micro-step, as numbers (R32). -/
theorem commitOutput_off_rem {c : Config} {s : State} (hcr : s.outputCount ≤ s.rem.toNat)
    (hlt : s.off.toNat + s.rem.toNat < 2 ^ 64) :
    (commitOutput c s).off.toNat = s.off.toNat + s.outputCount ∧
    (commitOutput c s).rem.toNat + s.outputCount = s.rem.toNat := by
  have hcnt : (BitVec.ofNat 64 s.outputCount).toNat = s.outputCount := lenOf_toNat _ (by omega)
  rw [commitOutput_off, commitOutput_rem, BitVec.toNat_add, BitVec.toNat_sub_of_le (by rw [BitVec.le_def]; omega), hcnt]
  omega

/-- `SCR` at the end of a micro-step: the blocks it encrypted, and the others as they were (R143 to R146). -/
theorem commitOutput_scr_getElem (c : Config) (s : State) (j : Fin 8) :
    (commitOutput c s).scr[j] =
      if j.val < outputBlocks s.phase then encBlk s.rk (ctrAdd c.ctrIncWidth s.ctr j.val) else s.scr[j] := by
  rw [commitOutput_scr, scratchWith, Fin.getElem_fin, Vector.getElem_ofFn]
  rfl

/-- Under the invariant an output micro-step has a next state: the transfer, and the register writes once no byte is
left. -/
theorem microStep_output_of_inv {c : Config} {s : State} (h : s.Inv c) (ho : s.phase.isOutput = true) :
    ∃ t, microStep c s = .next t ∧ t.out = (takeOutput c s).out ∧ t.pace = s.pace.after s.took ∧
      SameOutsideOutput s t ∧ (s.sent + s.took < s.outputCount → t = takeOutput c s) ∧
      (s.sent + s.took = s.outputCount → t = commitOutput c (takeOutput c s)) := by
  obtain ⟨hsel, hsent, -, hcr, hlen, -⟩ := h.outputRoom ho
  have hle := State.sent_add_took_le hsent.le
  have heq := outputStep_eq hsel (show s.off.toNat + s.sent + s.took ≤ s.out.len by omega)
  rw [microStep_output c ho]
  split_ifs at heq with hall
  · exact ⟨_, heq, rfl, rfl, outputStep_sameOutside heq, fun hmore => absurd hall (by omega), fun _ => rfl⟩
  · exact ⟨_, heq, rfl, rfl, outputStep_sameOutside heq, fun _ => rfl, fun hdone => absurd hdone (by omega)⟩

/-- With no room at the host an output micro-step changes nothing (R71). -/
theorem microStep_of_no_room {c : Config} {s : State} (h : s.Inv c) (ho : s.phase.isOutput = true)
    (hp : s.pace = .paced 0) : microStep c s = .next s := by
  have htook : s.took = 0 := by rw [State.took, hp]; exact Nat.zero_min _
  obtain ⟨-, hsent, -⟩ := h.outputRoom ho
  obtain ⟨t, hstep, -, -, -, hmore, -⟩ := microStep_output_of_inv h ho
  rw [hstep, hmore (by omega), takeOutput_of_took_zero htook]

/-- The block and byte counts of the four output phases (R143 to R146). -/
theorem outputBlocks_outputCount (s : State) :
    (s.phase = .f8 → outputBlocks s.phase = 8 ∧ s.outputCount = 128) ∧
    (s.phase = .f2 → outputBlocks s.phase = 2 ∧ s.outputCount = 32) ∧
    (s.phase = .f1 → outputBlocks s.phase = 1 ∧ s.outputCount = 16) ∧
    (s.phase = .tail → outputBlocks s.phase = 1 ∧ s.outputCount = s.rem.toNat) := by
  refine ⟨?_, ?_, ?_, ?_⟩ <;> intro hp <;> simp [State.outputCount, outputBlocks, hp]

/-- Settles O36: the micro-step is its transfer, whose bytes stand where `takeOutput_read` says, and once no byte is
left the register writes, which do not depend on how many of the bytes this micro-step moved. -/
theorem backPressureOnlyDelays : Obligations.BackPressureOnlyDelays := by
  refine ⟨fun c s => microStep_of_no_room, fun c s h ho hp => ?_, outputBlocks_outputCount⟩
  obtain ⟨hsel, hsent, hblocks, hcr, hlen, hlt⟩ := h.outputRoom ho
  have hbytes := outputBytes_length (c := c) hsel ho
  have hpos : 0 < s.took := Pace.takes_pos hp (by omega)
  have hle := State.sent_add_took_le hsent.le
  obtain ⟨t, hstep, hout, hpace, hsame, hmore, hdone⟩ := microStep_output_of_inv h ho
  have hread := takeOutput_read hbytes hsent.le
  refine ⟨hpos, decide_eq_true hsent, t, (s.outputBytes c)[s.sent], hstep, List.getElem?_eq_getElem _, ?_,
    fun j i hi hlo hhi => ?_, fun a ha => ?_, hpace, hsame, fun hk => ?_, fun hk => ?_⟩
  · rw [hout, hread, if_pos (by omega), Nat.add_sub_cancel_left, List.getElem?_eq_getElem]
  · change 16 * j + i < s.sent + s.took at hhi
    rw [hout, hread, if_pos (by omega), Nat.add_sub_cancel_left, outputBytes_getElem? hblocks hi (by omega)]
  · change a < _ ∨ s.off.toNat + s.sent + s.took ≤ a at ha
    rw [hout, hread, if_neg (by omega)]
  · rw [hmore hk]
    exact ⟨rfl, rfl, rfl, rfl, rfl, rfl⟩
  · obtain ⟨hoff, hrem⟩ := commitOutput_off_rem (c := c) (s := takeOutput c s) hcr (hlen.trans_lt hlt)
    rw [hdone hk]
    exact ⟨commitOutput_scr_getElem c (takeOutput c s), rfl, hoff, hrem, rfl, rfl⟩

/-! ### A FILL that the host makes wait -/

/-- Where a FILL under way stands in `IDLE` it is over, in the command step's state. -/
theorem fillProgress_at_idle {c : Config} {n : Nat} {s t : State} (h : FillProgress c n s t) (hp : t.phase = .idle) :
    t = { fillCommand c n s with pace := t.pace } := by
  obtain ⟨-, hcase⟩ := h
  rwa [hp] at hcase

/-- An accepted FILL has its bytes and the three rekey steps before it. -/
theorem acceptFill_workLeft_le (c : Config) {n : Nat} (s : State) (hn : n < 2 ^ 64) :
    (acceptFill c n s).workLeft ≤ n + 3 := by
  have hl : (acceptFill c n s).rem.toNat = n := lenOf_toNat n hn
  by_cases h0 : n = 0
  · subst h0
    simp [State.workLeft]
  · rw [State.workLeft_output (select_isOutput c n (by omega)), hl, acceptFill_sent, Nat.sub_zero]

/-- An accepted FILL under any list of offers: it stands where a FILL may, and is over once the host has offered room
for each byte and each rekey step. -/
theorem offeredRun_acceptFill (c : Config) {n : Nat} {s : State} (hn : n < 2 ^ 64) (hs : s.phase = .idle)
    (rs : List Nat) :
    ∃ t, offeredRun (microStep c) rs (acceptFill c n s) = .next t ∧ FillProgress c n s t ∧
      (n + 3 ≤ rs.countP (0 < ·) → t.phase = .idle) := by
  obtain ⟨t, hrun, hprog, hwork⟩ := fillProgress_offeredRun hn hs (fillProgress_accept c n s hn) rs
  have haccept := acceptFill_workLeft_le c s hn
  exact ⟨t, hrun, hprog, fun hrs => fillProgress_idle hprog (by omega)⟩

/-- With no reset and no command byte there, a step is a micro-step in `IDLE` too: both wait (R197). -/
theorem step_eq_microStep {s : State} (hr : s.rst = false) (hc : s.cmd = []) (hl : s.latch = []) :
    step s = microStep Config.core s := by
  by_cases hp : s.phase = .idle
  · have hidle : microStep Config.core s = .next s := by simp only [microStep, hp]
    rw [hidle]
    cases hy : s.ready with
    | false => exact step_of_not_ready hr hp hy
    | true =>
      rw [step_of_decode_incomplete hr hy (by rw [hl, hc]; rfl), hc, List.append_nil, ← hc]
  · exact step_micro hr hp

/-- With no command byte there, the machine's own steps under any list of offers are its micro-steps. -/
theorem offeredRun_step_eq_microStep {s : State} (hr : s.rst = false) (hc : s.cmd = []) (hl : s.latch = [])
    (rs : List Nat) : offeredRun step rs s = offeredRun (microStep Config.core) rs s := by
  induction rs generalizing s with
  | nil => rfl
  | cons r rs ih =>
    simp only [offeredRun, step_eq_microStep (s := hostPaces (.paced r) s) hr hc hl]
    cases hu : microStep Config.core (hostPaces (.paced r) s) with
    | next u =>
      obtain ⟨hur, huc, hul⟩ := microStep_keeps_command_side hu
      exact ih (hur.trans hr) (huc.trans hc) (hul.trans hl)
    | fault e => rfl
    | refused e => rfl

/-- A presented FILL is accepted in the first step, whatever room the host offers in it (R88, R142). -/
theorem step_presented_fill {n r : Nat} {s : State} (hn : n < 2 ^ 64) (hrst : s.rst = false) (hp : s.phase = .idle)
    (hf : s.fault = false) (hs : s.seeded = true) (hl : s.latch = []) (hc : s.cmd = encode (.fill n)) :
    step (hostPaces (.paced r) s) =
      .next (acceptFill Config.core n { s with latch := [], cmd := [], pace := .paced r }) := by
  have hd : decode (s.latch ++ s.cmd) = .command (.fill n) [] := by
    rw [hl, hc, List.nil_append, ← decode_encode_fill hn [], List.append_nil]
  rw [step_of_decode_command (s := hostPaces (.paced r) s) hrst hp hf hd]
  exact exec_fill_paced ((ready_iff _).2 ⟨hp, hf⟩) hs rfl

/-- Settles O41: at every offer the FILL stands where `FillProgress` says, and each offer of room leaves less to do. -/
theorem stalledFillEndsWhereTheCommandStepEnds : Obligations.StalledFillEndsWhereTheCommandStepEnds := by
  constructor
  · intro c n s rs hn hs _
    obtain ⟨t, hrun, hprog, hover⟩ := offeredRun_acceptFill c hn hs rs
    obtain ⟨k, hk, hout⟩ := fillProgress_out hprog
    exact ⟨t, hrun, ⟨k, hk, fun a => by rw [hout, fillPrefix_read c n k s hk a]⟩, fillProgress_at_idle hprog, hover⟩
  · intro n r s rs hn hrst hp hf hs hl hc hrs
    obtain ⟨t, hrun, hprog, hover⟩ := offeredRun_acceptFill Config.core
      (s := { s with latch := [], cmd := [], pace := .paced r }) hn hp rs
    have hmicro := offeredRun_step_eq_microStep
      (s := acceptFill Config.core n { s with latch := [], cmd := [], pace := .paced r }) hrst rfl rfl rs
    refine ⟨_, t.pace, exec_fill_prompt ((ready_iff _).2 ⟨hp, hf⟩) hs rfl, ?_⟩
    simp only [offeredRun, step_presented_fill hn hrst hp hf hs hl hc, hmicro, hrun]
    rw [fillProgress_at_idle hprog (hover hrs), ← hl]
    rfl

end Sys2Proof.Machine
end

section
/-! PROOFS. The command encoding (spec/30_encoding.md R81 to R91): decoder and encoder as inverses, what each answer of
the decoder says of the bytes, and the commands as table words. -/

namespace Sys2Proof.Machine

open Sys2Proof

/-! ### Decoder and encoder -/

/-- The seed's 32 bytes are the seed (R82). -/
theorem seedOfBytes_leBytes (x : Seed) : seedOfBytes (leBytes 32 x.toNat) = x := by
  rw [seedOfBytes, ofLEBytes_leBytes, Nat.mod_eq_of_lt (by have := x.isLt; omega), BitVec.ofNat_toNat,
    BitVec.setWidth_eq]

/-- The decoder reads a SEED back from its encoding, whatever follows (R82, R91). -/
theorem decode_encode_seed (x : Seed) (rest : List Byte) :
    decode (encode (.seed x) ++ rest) = .command (.seed x) rest := by
  rw [encode, List.cons_append, decode_seed, if_pos (by simp), List.take_left' (leBytes_length 32 _),
    List.drop_left' (leBytes_length 32 _), seedOfBytes_leBytes]

/-- Settles O3: the opcode tells the format, and each operand is read back from its bytes. -/
theorem decodeInvertsEncode : Obligations.DecodeInvertsEncode := by
  intro i rest hw
  cases i with
  | seed x => exact decode_encode_seed x rest
  | fill n => exact decode_encode_fill hw rest

/-! ### What each answer says of the bytes -/

theorem opSeed_ne_opFill : opSeed ≠ opFill := by decide

/-- The four kinds of byte strings R85 tells apart. -/
theorem opcode_cases (bs : List Byte) :
    bs = [] ∨ (∃ rest, bs = opSeed :: rest) ∨ (∃ rest, bs = opFill :: rest) ∨
    ∃ op rest, bs = op :: rest ∧ op ≠ opSeed ∧ op ≠ opFill := by
  cases bs with
  | nil => exact .inl rfl
  | cons op rest =>
    by_cases hs : op = opSeed
    · exact .inr (.inl ⟨rest, by rw [hs]⟩)
    · by_cases hf : op = opFill
      · exact .inr (.inr (.inl ⟨rest, by rw [hf]⟩))
      · exact .inr (.inr (.inr ⟨op, rest, rfl, hs, hf⟩))

/-- An operand read from the first `k` bytes has just these bytes. -/
theorem leBytes_ofLEBytes_take {k : Nat} {bs : List Byte} (h : k ≤ bs.length) :
    leBytes k (ofLEBytes (bs.take k)) = bs.take k := by
  have hread := leBytes_ofLEBytes (bs.take k)
  rwa [List.length_take_of_le h] at hread

/-- A seed read from 32 bytes has their number (R82). -/
theorem toNat_seedOfBytes {bs : List Byte} (h : bs.length = 32) : (seedOfBytes bs).toNat = ofLEBytes bs := by
  have hlt := ofLEBytes_lt bs
  rw [h] at hlt
  rw [seedOfBytes, BitVec.toNat_ofNat, Nat.mod_eq_of_lt (by omega)]

/-- The bytes of a decoded command are its encoding and the rest (R91). -/
theorem eq_encode_append_of_decode {bs rest : List Byte} {i : Instr} (h : decode bs = .command i rest) :
    bs = encode i ++ rest := by
  obtain rfl | ⟨r, rfl⟩ | ⟨r, rfl⟩ | ⟨op, r, rfl, hs, hf⟩ := opcode_cases bs
  · simp [decode] at h
  · rw [decode_seed] at h
    split_ifs at h with hlen
    obtain ⟨rfl, rfl⟩ := Decoded.command.inj h
    rw [encode, toNat_seedOfBytes (List.length_take_of_le hlen), leBytes_ofLEBytes_take hlen, List.cons_append,
      List.take_append_drop]
  · rw [decode_fill] at h
    split_ifs at h with hlen
    obtain ⟨rfl, rfl⟩ := Decoded.command.inj h
    rw [encode, leBytes_ofLEBytes_take hlen, List.cons_append, List.take_append_drop]
  · simp [decode_reserved op r hs hf] at h

/-- Illegal is answered for a reserved first byte only, which alone is consumed (R84, R85). -/
theorem decode_eq_illegal_iff (bs : List Byte) (op : Byte) (rest : List Byte) :
    decode bs = .illegal op rest ↔ bs = op :: rest ∧ op ≠ opSeed ∧ op ≠ opFill := by
  constructor
  · intro h
    obtain rfl | ⟨r, rfl⟩ | ⟨r, rfl⟩ | ⟨op', r, rfl, hs, hf⟩ := opcode_cases bs
    · simp [decode] at h
    · rw [decode_seed] at h
      split_ifs at h
    · rw [decode_fill] at h
      split_ifs at h
    · rw [decode_reserved op' r hs hf] at h
      obtain ⟨rfl, rfl⟩ := Decoded.illegal.inj h
      exact ⟨rfl, hs, hf⟩
  · rintro ⟨rfl, hs, hf⟩
    exact decode_reserved op rest hs hf

/-- Incomplete is answered for no byte, and for a legal opcode with too few bytes after it (R91). -/
theorem decode_eq_incomplete_iff (bs : List Byte) :
    decode bs = .incomplete ↔
      bs = [] ∨ (∃ rest, bs = opSeed :: rest ∧ rest.length < 32) ∨ (∃ rest, bs = opFill :: rest ∧ rest.length < 8) := by
  obtain rfl | ⟨r, rfl⟩ | ⟨r, rfl⟩ | ⟨op, r, rfl, hs, hf⟩ := opcode_cases bs
  · simp [decode]
  · simp [decode_seed, opSeed_ne_opFill]
  · simp [decode_fill, opSeed_ne_opFill.symm]
  · simp [decode_reserved op r hs hf, hs, hf]

/-- Settles O4, one lemma for each answer of the decoder. -/
theorem decoderClassifiesEveryByteString : Obligations.DecoderClassifiesEveryByteString :=
  ⟨fun _ _ _ h => ⟨decode_wellFormed h, eq_encode_append_of_decode h⟩, decode_eq_illegal_iff, decode_eq_incomplete_iff⟩

/-! ### Commands as numbers -/

/-- A SEED as a number: the seed above the opcode (R81, R82). -/
theorem encodeBits_seed (x : Seed) : encodeBits (.seed x) = 0x01 + 2 ^ 8 * x.toNat := by
  rw [encodeBits, encode, ofLEBytes, ofLEBytes_leBytes, Nat.mod_eq_of_lt (by have := x.isLt; omega)]
  rfl

/-- A FILL as a number: the length above the opcode (R81, R83). -/
theorem encodeBits_fill {n : Nat} (hn : n < 2 ^ 64) : encodeBits (.fill n) = 0x02 + 2 ^ 8 * n := by
  rw [encodeBits, encode, ofLEBytes, ofLEBytes_leBytes, Nat.mod_eq_of_lt (by omega)]
  rfl

theorem encode_seed_length (x : Seed) : (encode (.seed x)).length = 33 := by simp [encode]

theorem encode_fill_length (n : Nat) : (encode (.fill n)).length = 9 := by simp [encode]

/-- Seed byte `a` is command byte `1 + a` (R82). -/
theorem encode_seed_getElem? (x : Seed) {a : Nat} (ha : a < 32) :
    (encode (.seed x))[1 + a]? = some (x.extractLsb' (8 * a) 8) := by
  have hbyte : BitVec.ofNat 8 (x.toNat / 256 ^ a) = x.extractLsb' (8 * a) 8 := by
    rw [BitVec.extractLsb', Nat.shiftRight_eq_div_pow, Nat.pow_mul]
  rw [encode, Nat.add_comm, List.getElem?_cons_succ, leBytes_getElem? 32 _ a ha, hbyte]

/-- The first byte of a command tells how long it is (R84). -/
theorem encode_size (i : Instr) : Laws.EncodingSize.Statement i := by
  cases i with
  | seed x => exact Laws.EncodingSize.seed x
  | fill n => exact Laws.EncodingSize.fill n

/-- The low byte of a number made of bytes is the first of them. -/
theorem ofNat_ofLEBytes_cons (b : Byte) (bs : List Byte) : BitVec.ofNat 8 (ofLEBytes (b :: bs)) = b := by
  have hb := b.isLt
  apply BitVec.eq_of_toNat_eq
  rw [BitVec.toNat_ofNat, ofLEBytes]
  omega

/-- The bytes of a command's table word are its encoding (R81). -/
theorem commandBytes_encodeBits (i : Instr) : commandBytes (8 * (encode i).length) (encodeBits i) = encode i := by
  obtain ⟨op, operand, henc, hlen⟩ := encode_size i
  have hop : BitVec.ofNat 8 (encodeBits i) = op := by rw [encodeBits, henc, ofNat_ofLEBytes_cons]
  have hbits : ¬ 8 * (encode i).length < 8 := by rw [henc, List.length_cons]; omega
  rw [commandBytes, if_neg hbits, hop, ← hlen, Nat.mul_div_cancel_left _ (by decide), encodeBits, leBytes_ofLEBytes,
    List.take_left]

/-- The decoder reads a command back from its table word (R91). -/
theorem decodeTableWord_encodeBits {i : Instr} (hw : i.WellFormed) :
    decodeTableWord (8 * (encode i).length) (encodeBits i) = some i := by
  have hd := decodeInvertsEncode i [] hw
  rw [List.append_nil] at hd
  rw [decodeTableWord, commandBytes_encodeBits, hd]

/-- A word whose low byte is reserved is that byte alone (R84, R86). -/
theorem commandBytes_reserved {nbits w : Nat} (hn : 8 ≤ nbits) (hs : BitVec.ofNat 8 w ≠ opSeed)
    (hf : BitVec.ofNat 8 w ≠ opFill) : commandBytes nbits w = [BitVec.ofNat 8 w] := by
  obtain ⟨k, hk⟩ : ∃ k, nbits / 8 = k + 1 := ⟨nbits / 8 - 1, by omega⟩
  rw [commandBytes, if_neg (by omega), commandLength, if_neg hs, if_neg hf, hk, leBytes]
  rfl

/-- The decoder reads nothing from a word with a reserved opcode (R85). -/
theorem decodeTableWord_reserved {nbits w : Nat} (hn : 8 ≤ nbits) (hs : BitVec.ofNat 8 w ≠ opSeed)
    (hf : BitVec.ofNat 8 w ≠ opFill) : decodeTableWord nbits w = none := by
  rw [decodeTableWord, commandBytes_reserved hn hs hf, decode_reserved _ _ hs hf]

/-- A byte differs from a number's low byte where their values do. -/
theorem ofNat_byte_ne {w : Nat} {op : Byte} (h : w % 2 ^ 8 ≠ op.toNat) : BitVec.ofNat 8 w ≠ op :=
  fun hw => h (by rw [← hw, BitVec.toNat_ofNat])

/-- Settles O5: the numbers from the operands' bytes, the table words from the round trip of O3. -/
theorem commandBitsFollowTheTable : Obligations.CommandBitsFollowTheTable := by
  refine ⟨fun x => ?_, fun n hn => ?_, fun nbits w hn h1 h2 => ?_⟩
  · have hword := decodeTableWord_encodeBits (i := .seed x) trivial
    rw [encode_seed_length, encodeBits_seed] at hword
    exact ⟨encodeBits_seed x, encode_seed_length x, fun a => encode_seed_getElem? x, hword⟩
  · have hword := decodeTableWord_encodeBits (i := .fill n) hn
    rw [encode_fill_length, encodeBits_fill hn] at hword
    exact ⟨encodeBits_fill hn, encode_fill_length n, hword⟩
  · exact decodeTableWord_reserved hn (ofNat_byte_ne h1) (ofNat_byte_ne h2)

/-- Settles O6: five byte strings, decoded by evaluation. -/
theorem writtenOutWordsDecode : Obligations.WrittenOutWordsDecode := by
  unfold Obligations.WrittenOutWordsDecode
  decide

end Sys2Proof.Machine
end

section
/-! PROOFS. The text of a command (spec/30_encoding.md R89, R90) reads back as the command. -/

namespace Sys2Proof.Machine

open Sys2Proof

/-! ### Digits -/

/-- Each of the sixteen digits is read back from its character. -/
theorem charDigit_digitChar : ∀ d < 16, charDigit (digitChar d) = some d := by decide

/-- A string of hexadecimal digit pairs is read back as its bytes. -/
theorem bytesOfHex_hexOfBytes (bs : List Byte) : bytesOfHex (hexOfBytes bs) = some bs := by
  induction bs with
  | nil => rfl
  | cons b bs ih =>
    have hb := b.isLt
    have hhigh := charDigit_digitChar (b.toNat / 16) (by omega)
    have hlow := charDigit_digitChar (b.toNat % 16) (by omega)
    have hbyte : BitVec.ofNat 8 (16 * (b.toNat / 16) + b.toNat % 16) = b := by
      rw [Nat.div_add_mod, BitVec.ofNat_toNat, BitVec.setWidth_eq]
    simp only [hexOfBytes, hexOfByte, List.cons_append, List.nil_append, bytesOfHex, hhigh, hlow, ih, hbyte]

/-- Reading one decimal digit. -/
theorem naturalOfDecimal_digitChar {d : Nat} (hd : d < 10) (cs : List Char) (acc : Nat) :
    naturalOfDecimal (digitChar d :: cs) acc = naturalOfDecimal cs (10 * acc + d) := by
  simp only [naturalOfDecimal, charDigit_digitChar d (by omega), if_pos hd]

/-- Reading the decimal digits of `n` comes to reading what stands after them, on from `n`. -/
theorem naturalOfDecimal_decimalDigits {fuel n : Nat} (hn : n < 10 ^ fuel) (cs : List Char) :
    naturalOfDecimal (decimalDigits fuel n cs) 0 = naturalOfDecimal cs n := by
  induction fuel generalizing n cs with
  | zero =>
    obtain rfl : n = 0 := by omega
    rfl
  | succ fuel ih =>
    rw [decimalDigits]
    split_ifs with h10
    · rw [naturalOfDecimal_digitChar h10, Nat.mul_zero, Nat.zero_add]
    · rw [ih (by omega), naturalOfDecimal_digitChar (Nat.mod_lt _ (by decide)), Nat.div_add_mod]

/-- A number has at least one decimal digit. -/
theorem length_lt_decimalDigits (fuel n : Nat) (cs : List Char) :
    cs.length < (decimalDigits (fuel + 1) n cs).length := by
  induction fuel generalizing n cs with
  | zero => rw [decimalDigits]; split_ifs <;> simp [decimalDigits]
  | succ fuel ih =>
    rw [decimalDigits]
    split_ifs
    · simp
    · exact Nat.lt_of_succ_lt (ih (n / 10) (digitChar (n % 10) :: cs))

/-! ### The two lines -/

/-- The line of a SEED reads back (R89). -/
theorem parseCommand_seedText (x : Seed) : parseCommand (commandText (.seed x)) = some (.seed x) := by
  simp [commandText, parseCommand, bytesOfHex_hexOfBytes, seedOfBytes_leBytes]

/-- The line of a FILL reads back (R89). -/
theorem parseCommand_fillText {n : Nat} (hn : n < 2 ^ lenWidth) :
    parseCommand (commandText (.fill n)) = some (.fill n) := by
  have hread : naturalOfDecimal (decimalDigits 20 n []) 0 = some n :=
    naturalOfDecimal_decimalDigits (hn.trans (by decide)) []
  obtain ⟨c, cs, hcs⟩ := List.exists_cons_of_length_pos (length_lt_decimalDigits 19 n [])
  rw [hcs] at hread
  simp [commandText, hcs, parseCommand, hread, hn]

/-- Settles O7: the operands are read back from their digits; `REKEY` is a line of its own (R90). -/
theorem commandTextReadsBack : Obligations.CommandTextReadsBack := by
  refine ⟨fun i hw => ?_, rfl⟩
  cases i with
  | seed x => exact parseCommand_seedText x
  | fill n => exact parseCommand_fillText hw

end Sys2Proof.Machine
end

section
/-! PROOFS. Consuming a command (spec/30_encoding.md R86, R88): the decoded command is run, an incomplete one collected,
a reserved opcode faults, and a CORE that is not ready lets a command wait. -/

namespace Sys2Proof.Machine

open Sys2Proof

/-- Settles O8: `fetch` finds the decoded command, and `step` runs it. -/
theorem stepRunsTheDecodedCommand : Obligations.StepRunsTheDecodedCommand :=
  fun _ _ _ => step_of_decode_command

/-- A ready CORE cannot tell how the bytes it sees are split between the latch and the port (R88). -/
theorem step_congr_bytes {s : State} {latch cmd latch' cmd' : List Byte} (hr : s.rst = false) (hy : s.ready = true)
    (h : latch ++ cmd = latch' ++ cmd') :
    step { s with latch := latch, cmd := cmd } = step { s with latch := latch', cmd := cmd' } := by
  obtain ⟨hp, hf⟩ := (ready_iff s).1 hy
  cases hd : decode (latch ++ cmd) with
  | command i rest =>
    rw [step_of_decode_command (s := { s with latch := latch, cmd := cmd }) hr hp hf hd,
      step_of_decode_command (s := { s with latch := latch', cmd := cmd' }) hr hp hf (h ▸ hd)]
  | illegal op rest =>
    rw [step_of_decode_illegal (s := { s with latch := latch, cmd := cmd }) hr hy hd,
      step_of_decode_illegal (s := { s with latch := latch', cmd := cmd' }) hr hy (h ▸ hd)]
  | incomplete =>
    rw [step_of_decode_incomplete (s := { s with latch := latch, cmd := cmd }) hr hy hd,
      step_of_decode_incomplete (s := { s with latch := latch', cmd := cmd' }) hr hy (h ▸ hd)]
    simp only [h]

/-- Settles O9: the collecting step only moves bytes to the latch, and where they stand makes no difference. -/
theorem incompleteCommandIsCollected : Obligations.IncompleteCommandIsCollected := by
  constructor
  · intro s hr hp hf hd
    exact ⟨step_of_decode_incomplete hr ((ready_iff s).2 ⟨hp, hf⟩) hd, by simp [State.busy, hp]⟩
  · intro s t bs more hr hp hf hc hd hst
    have hy := (ready_iff s).2 ⟨hp, hf⟩
    rw [step_of_decode_incomplete hr hy (hc ▸ hd), Host.Outcome.next.injEq] at hst
    rw [← hst]
    exact step_congr_bytes hr hy (by simp)

/-- A CORE that is not ready lets a command wait (R88 step 1). -/
theorem exec_of_not_ready {s : State} (h : s.ready = false) (i : Instr) : exec i s = .next s := by
  cases i with
  | seed x => simp [exec, execSeed, h]
  | fill n => simp [exec, execFill, h]

/-- Settles O45: busy or faulted, CORE is not ready. -/
theorem commandWaitsUnlessReady : Obligations.CommandWaitsUnlessReady := by
  intro i s h
  refine exec_of_not_ready (Bool.eq_false_iff.2 fun hy => ?_) i
  obtain ⟨hp, hf⟩ := (ready_iff s).1 hy
  rcases h with hbusy | hfault
  · exact hbusy hp
  · rw [hf] at hfault
    cases hfault

/-- Settles O47: the decoder answers illegal, and the fault leaves all but its three registers alone. -/
theorem reservedOpcodeTakesIllegalCommand : Obligations.ReservedOpcodeTakesIllegalCommand := by
  refine ⟨fun s op rest hr hp hf hl hc h1 h2 => ?_, rfl⟩
  have hd : decode (s.latch ++ s.cmd) = .illegal op rest := by
    rw [hl, hc, List.nil_append, decode_reserved op rest h1 h2]
  rw [step_of_decode_illegal hr ((ready_iff s).2 ⟨hp, hf⟩) hd, ← hl]
  rfl

end Sys2Proof.Machine
end

section
/-! PROOFS. The cipher round primitives and the key-schedule primitives (spec/40_cipher_primitives.md R101 to R112), by
byte, by column, by word and as numbers. -/

namespace Sys2Proof.Machine

open Sys2Proof

/-! ### `SUBBYTES` and `SHIFTROWS` -/

/-- Byte `i` of `SUBBYTES` (R103). -/
theorem byteAt_subBytes (s : Block) {i : Nat} (hi : i < 16) : byteAt (subBytes s) i = sbox (byteAt s i) :=
  byteAt_ofBytes _ i hi

/-- The byte in row `r`, column `c` of `SHIFTROWS` (R105). -/
theorem byteAt_shiftRows (s : Block) {r c : Nat} (hr : r < 4) (hc : c < 4) :
    byteAt (shiftRows s) (r + 4 * c) = byteAt s (r + 4 * ((c + r) % 4)) := by
  have hrow : (r + 4 * c) % 4 = r := by omega
  have hcol : (r + 4 * c) / 4 = c := by omega
  rw [shiftRows, byteAt_ofBytes _ _ (by omega), hrow, hcol]

/-- R105's permutation, as printed, is its rule by row and column. -/
theorem shiftRowsPermutation_eq (i : Fin 16) :
    #v[0, 5, 10, 15, 4, 9, 14, 3, 8, 13, 2, 7, 12, 1, 6, 11][i] = i.val % 4 + 4 * ((i.val / 4 + i.val % 4) % 4) := by
  revert i
  decide

/-- Settles O12: each function is built byte by byte. -/
theorem subBytesAndShiftRowsByteByByte : Obligations.SubBytesAndShiftRowsByteByByte := by
  refine ⟨fun s _ hi => byteAt_subBytes s hi, by decide, fun s _ _ => byteAt_shiftRows s, fun s c hc => ?_,
    fun s i => ?_, by decide⟩
  · have h := byteAt_shiftRows s (show 0 < 4 by decide) hc
    rwa [Nat.add_zero, Nat.mod_eq_of_lt hc, Nat.zero_add] at h
  · rw [shiftRows, byteAt_ofBytes _ _ i.isLt, shiftRowsPermutation_eq]

/-- `SUBBYTES` changes each byte where it stands and `SHIFTROWS` only moves bytes, so they commute (R106). -/
theorem subBytes_shiftRows (s : Block) : subBytes (shiftRows s) = shiftRows (subBytes s) := by
  refine block_ext fun i hi => ?_
  rw [byteAt_subBytes _ hi, shiftRows, shiftRows, byteAt_ofBytes _ i hi, byteAt_ofBytes _ i hi,
    byteAt_subBytes _ (by omega)]

/-! ### `ROUND` and `LASTROUND` -/

/-- The byte in row `r`, column `c` of `LASTROUND` (R107). -/
theorem byteAt_lastRound (s k : Block) {r c : Nat} (hr : r < 4) (hc : c < 4) :
    byteAt (lastRound s k) (r + 4 * c) = sbox (byteAt s (r + 4 * ((c + r) % 4))) ^^^ byteAt k (r + 4 * c) := by
  rw [lastRound, byteAt_xor, byteAt_subBytes _ (by omega), byteAt_shiftRows _ hr hc]

/-- Settles O13: the compositions are the definitions, and the two byte steps commute. -/
theorem roundAndLastRoundComposition : Obligations.RoundAndLastRoundComposition :=
  ⟨fun _ _ => rfl, subBytes_shiftRows, fun s k => by rw [cipherRound, subBytes_shiftRows], by decide +kernel,
    by decide +kernel, fun _ _ => rfl, fun s k _ _ => byteAt_lastRound s k, by decide +kernel⟩

/-! ### Words by byte, blocks by word -/

/-- A word is its four bytes. -/
theorem word_ext {v w : Word32} (h : ∀ i, i < 4 → wordByte v i = wordByte w i) : v = w := by
  refine BitVec.eq_of_getLsbD_eq fun k hk => ?_
  have hbit := congrArg (fun x => x.getLsbD (k % 8)) (h (k / 8) (by omega))
  simpa [wordByte, show k % 8 < 8 by omega, Nat.div_add_mod] using hbit

/-- Byte `i` of a block stands in word `i / 4` (R104). -/
theorem byteAt_eq_wordByte (s : Block) (i : Nat) : byteAt s i = wordByte (wordAt s (i / 4)) (i % 4) := by
  rw [wordByte_wordAt _ _ _ (Nat.mod_lt _ (by decide)), Nat.div_add_mod]

/-- Byte `i` of a word whose bytes are given by a function. -/
theorem wordByte_ofWordBytes_apply (g : Nat → Byte) {i : Nat} (hi : i < 4) :
    wordByte (ofWordBytes (g 0) (g 1) (g 2) (g 3)) i = g i := by
  obtain ⟨h0, h1, h2, h3⟩ := wordByte_ofWordBytes (g 0) (g 1) (g 2) (g 3)
  interval_cases i
  exacts [h0, h1, h2, h3]

/-- Word `j` of a block whose words are given by a function. -/
theorem wordAt_ofWords_apply (g : Nat → Word32) {j : Nat} (hj : j < 4) :
    wordAt (ofWords (g 0) (g 1) (g 2) (g 3)) j = g j := by
  obtain ⟨h0, h1, h2, h3⟩ := wordAt_ofWords (g 0) (g 1) (g 2) (g 3)
  interval_cases j
  exacts [h0, h1, h2, h3]

/-! ### `MIXCOLUMNS` -/

/-- `MIXCOLUMNS` acts on each column alone (R109). -/
theorem wordAt_mixColumns (s : Block) {c : Nat} (hc : c < 4) : wordAt (mixColumns s) c = mixColumn (wordAt s c) :=
  wordAt_ofWords_apply (fun j => mixColumn (wordAt s j)) hc

/-- The four formulas of R109, on a column. -/
theorem wordByte_mixColumn (w : Word32) :
    wordByte (mixColumn w) 0 = mul2 (wordByte w 0) ^^^ mul3 (wordByte w 1) ^^^ wordByte w 2 ^^^ wordByte w 3 ∧
    wordByte (mixColumn w) 1 = wordByte w 0 ^^^ mul2 (wordByte w 1) ^^^ mul3 (wordByte w 2) ^^^ wordByte w 3 ∧
    wordByte (mixColumn w) 2 = wordByte w 0 ^^^ wordByte w 1 ^^^ mul2 (wordByte w 2) ^^^ mul3 (wordByte w 3) ∧
    wordByte (mixColumn w) 3 = mul3 (wordByte w 0) ^^^ wordByte w 1 ^^^ wordByte w 2 ^^^ mul2 (wordByte w 3) :=
  wordByte_ofWordBytes _ _ _ _

/-- A column of four equal bytes maps to itself: `mul3 b` is `mul2 b` and one more `b`, so in each formula `mul2 b`
cancels and an odd number of `b` is left (R109). -/
theorem mixColumn_replicate (b : Byte) : mixColumn (ofWordBytes b b b b) = ofWordBytes b b b b := by
  have hmul3 : mul3 b = mul2 b ^^^ b := rfl
  simp only [mixColumn, wordByte_ofWordBytes, hmul3]
  congr 1 <;> grind

/-- The same, of the bytes of a block. -/
theorem byteAt_mixColumns_of_equal (s : Block) {c i : Nat} {b : Byte} (hc : c < 4)
    (hcol : ∀ i, i < 4 → byteAt s (4 * c + i) = b) (hi : i < 4) : byteAt (mixColumns s) (4 * c + i) = b := by
  have hbyte : ∀ i, i < 4 → wordByte (ofWordBytes b b b b) i = b := fun _ => wordByte_ofWordBytes_apply fun _ => b
  have hword : wordAt s c = ofWordBytes b b b b :=
    word_ext fun j hj => by rw [wordByte_wordAt _ _ _ hj, hcol j hj, hbyte j hj]
  rw [← wordByte_wordAt _ _ _ hi, wordAt_mixColumns s hc, hword, mixColumn_replicate, hbyte i hi]

/-- A block of sixteen equal bytes is unchanged. -/
theorem mixColumns_replicate (b : Byte) : mixColumns (ofBytes fun _ => b) = ofBytes fun _ => b := by
  have hbyte : ∀ i, i < 16 → byteAt (ofBytes fun _ => b) i = b := byteAt_ofBytes _
  refine block_ext fun i hi => ?_
  rw [hbyte i hi, ← Nat.div_add_mod i 4]
  exact byteAt_mixColumns_of_equal _ (by omega) (fun j hj => hbyte _ (by omega)) (Nat.mod_lt _ (by decide))

/-- Settles O14: a column of `MIXCOLUMNS` is `mixColumn` of that column, whose bytes are the four formulas. -/
theorem mixColumnsColumnByColumn : Obligations.MixColumnsColumnByColumn := by
  refine ⟨fun s c hc => ?_, fun s c b hc hcol i => byteAt_mixColumns_of_equal s hc hcol, mixColumns_replicate,
    by decide +kernel⟩
  have hcolumn := wordByte_mixColumn (wordAt s c)
  rw [← wordAt_mixColumns s hc] at hcolumn
  simpa only [wordByte_wordAt, Nat.reduceLT, Nat.add_zero] using hcolumn

/-! ### `SUBWORD`, `ROTWORD`, `RCW` and `KSASSIST` -/

/-- Byte `i` of `SUBWORD` (R110). -/
theorem wordByte_subWord (w : Word32) {i : Nat} (hi : i < 4) : wordByte (subWord w) i = sbox (wordByte w i) :=
  wordByte_ofWordBytes_apply (fun j => sbox (wordByte w j)) hi

/-- Byte `i` of `ROTWORD`: each byte moves one place toward index 0, and byte 0 goes to index 3 (R110). -/
theorem wordByte_rotWord (w : Word32) {i : Nat} (hi : i < 4) : wordByte (rotWord w) i = wordByte w ((i + 1) % 4) :=
  wordByte_ofWordBytes_apply (fun j => wordByte w ((j + 1) % 4)) hi

/-- A rotation right by eight bits moves whole bytes. -/
theorem wordByte_rotateRight_eight (w : Word32) {i : Nat} (hi : i < 4) :
    wordByte (w.rotateRight 8) i = wordByte w ((i + 1) % 4) := by
  refine BitVec.eq_of_getLsbD_eq fun k hk => ?_
  simp only [wordByte, BitVec.getLsbD_extractLsb', BitVec.getLsbD_rotateRight, Nat.reduceMod, Nat.reduceSub,
    Bool.cond_decide]
  split_ifs
  · rw [show 8 * ((i + 1) % 4) + k = 8 + (8 * i + k) by omega]
  · rw [show 8 * ((i + 1) % 4) + k = 8 * i + k - 24 by omega, decide_eq_true (show 8 * i + k < 32 by omega),
      Bool.true_and]

/-- The number of `ROTWORD` is that of the word, rotated right by eight bits (R110). -/
theorem rotWord_eq_rotateRight (w : Word32) : rotWord w = w.rotateRight 8 :=
  word_ext fun _ hi => by rw [wordByte_rotWord w hi, wordByte_rotateRight_eight w hi]

/-- `SUBWORD` changes each byte where it stands and `ROTWORD` only moves bytes, so they commute (R110). -/
theorem subWord_rotWord (w : Word32) : subWord (rotWord w) = rotWord (subWord w) := by
  refine word_ext fun i hi => ?_
  rw [wordByte_subWord _ hi, wordByte_rotWord _ hi, wordByte_rotWord _ hi,
    wordByte_subWord _ (Nat.mod_lt _ (by decide))]

/-- The four words of `KSASSIST` (R108). -/
theorem wordAt_ksAssist (x : Block) (rc : Byte) :
    wordAt (ksAssist x rc) 0 = subWord (wordAt x 1) ∧
    wordAt (ksAssist x rc) 1 = rotWord (subWord (wordAt x 1)) ^^^ rcWord rc ∧
    wordAt (ksAssist x rc) 2 = subWord (wordAt x 3) ∧
    wordAt (ksAssist x rc) 3 = rotWord (subWord (wordAt x 3)) ^^^ rcWord rc :=
  wordAt_ofWords _ _ _ _

/-! ### `BCAST3` and `SHL32` -/

/-- Every word of `BCAST3` is the high word (R111). -/
theorem wordAt_bcast3 (y : Block) {j : Nat} (hj : j < 4) : wordAt (bcast3 y) j = wordAt y 3 :=
  wordAt_ofWords_apply (fun _ => wordAt y 3) hj

/-- Byte `i` of `BCAST3` (R111). -/
theorem byteAt_bcast3 (y : Block) {i : Nat} (hi : i < 16) : byteAt (bcast3 y) i = byteAt y (12 + i % 4) := by
  rw [byteAt_eq_wordByte, wordAt_bcast3 y (by omega), wordByte_wordAt _ _ _ (Nat.mod_lt _ (by decide))]

/-- The low word of `SHL32` is zero (R112). -/
theorem wordAt_shl32_zero (k : Block) : wordAt (shl32 k) 0 = 0#32 :=
  (wordAt_ofWords _ _ _ _).1

/-- Each higher word of `SHL32` is the word below it (R112). -/
theorem wordAt_shl32_of_pos (k : Block) {j : Nat} (hpos : 1 ≤ j) (hj : j < 4) :
    wordAt (shl32 k) j = wordAt k (j - 1) := by
  obtain ⟨-, h1, h2, h3⟩ := wordAt_ofWords 0#32 (wordAt k 0) (wordAt k 1) (wordAt k 2)
  interval_cases j
  exacts [h1, h2, h3]

/-- Byte `i` of `SHL32` (R112). -/
theorem byteAt_shl32 (k : Block) {i : Nat} (hi : i < 16) :
    byteAt (shl32 k) i = if i < 4 then 0#8 else byteAt k (i - 4) := by
  rw [byteAt_eq_wordByte]
  split_ifs with hlow
  · rw [Nat.div_eq_of_lt hlow, wordAt_shl32_zero, wordByte, BitVec.extractLsb'_zero]
  · rw [wordAt_shl32_of_pos k (by omega) (by omega), wordByte_wordAt _ _ _ (by omega),
      show 4 * (i / 4 - 1) + i % 4 = i - 4 by omega]

/-- The value of a block is that of its words. -/
theorem val_ofWords (w0 w1 w2 w3 : Word32) :
    val (ofWords w0 w1 w2 w3) = w0.toNat + 2 ^ 32 * w1.toNat + 2 ^ 64 * w2.toNat + 2 ^ 96 * w3.toNat := by
  have hconcat : ∀ {n m : Nat} (x : BitVec n) (y : BitVec m), (x ++ y).toNat = 2 ^ m * x.toNat + y.toNat :=
    fun x y => by rw [BitVec.toNat_append, Nat.shiftLeft_eq, Nat.mul_comm, Nat.two_pow_add_eq_or_of_lt y.isLt]
  simp only [val, ofWords, hconcat]
  omega

/-- `SHL32` as a number: the high word is lost (R112). -/
theorem val_shl32 (k : Block) : val (shl32 k) = val k * 2 ^ 32 % 2 ^ 128 := by
  simp only [shl32, val_ofWords, wordAt_toNat, bitsOf, BitVec.toNat_ofNat]
  omega

/-- Settles O16: each primitive by its word or byte lemma, the examples by evaluation. -/
theorem keySchedulePrimitivesByWordAndByte : Obligations.KeySchedulePrimitivesByWordAndByte :=
  ⟨fun w _ => wordByte_subWord w, fun w _ => wordByte_rotWord w, rotWord_eq_rotateRight, subWord_rotWord,
    fun _ => wordByte_ofWordBytes _ _ _ _, wordAt_ksAssist, by decide +kernel, by decide +kernel, by decide +kernel,
    fun y _ => wordAt_bcast3 y, fun y _ => byteAt_bcast3 y, by decide +kernel, wordAt_shl32_zero,
    fun k _ => wordAt_shl32_of_pos k, fun k _ => byteAt_shl32 k, val_shl32, by decide +kernel⟩

/-! ### The S-box -/

/-- The byte whose affine image (R102) is `y`. -/
def sboxAffineInverse (y : Byte) : Byte := rotl8 y 1 ^^^ rotl8 y 3 ^^^ rotl8 y 6 ^^^ 0x05#8

/-- The affine map, checked on each of the 256 bytes. -/
theorem sboxAffine_sboxAffineInverse : ∀ y : Byte, sboxAffine (sboxAffineInverse y) = y := by decide +kernel

/-- The byte of which the table's entry of 0 is the affine image is 0. -/
theorem sboxAffineInverse_sbox_zero : sboxAffineInverse (sbox 0#8) = 0#8 := by decide

/-- The byte of which the table's entry of `a` is the affine image is the inverse of `a` (R102). -/
theorem gmul_sboxAffineInverse_sbox : ∀ a : Byte, a ≠ 0#8 → gmul a (sboxAffineInverse (sbox a)) = 1#8 := by
  decide +kernel

/-- Settles O11: the affine map is undone on each entry of the table, and what comes out is 0 or the inverse. -/
theorem sboxTableMatchesItsDefinition : Obligations.SboxTableMatchesItsDefinition := by
  refine ⟨?_, fun a ha => ⟨sboxAffineInverse (sbox a), gmul_sboxAffineInverse_sbox a ha, ?_⟩⟩
  · have hzero := sboxAffine_sboxAffineInverse (sbox 0#8)
    rw [sboxAffineInverse_sbox_zero] at hzero
    exact hzero.symm
  · rw [sboxAffine_sboxAffineInverse]

end Sys2Proof.Machine
end

section
/-! PROOFS. The key schedule expander (spec/41_key_schedule.md R121 to R125) and the published values of `EXPAND` and
`ENCBLK` (spec/42_block_encrypt.md R132, spec/95_test_vectors.md section 2.3). -/

namespace Sys2Proof.Machine

open Sys2Proof

/-! ### `EXPAND` -/

/-- Each round constant is the `xtime` of the one before (R121, the derived remark). -/
theorem roundConstant_succ {i : Nat} (hpos : 1 ≤ i) (hi : i < 10) :
    roundConstant (i + 1) = xtime (roundConstant i) := by
  interval_cases i <;> decide

/-- Round key 0 is the key (R123). -/
theorem keyAt_expand_zero (key : Block) : keyAt (expand key) 0 = key :=
  keyAt_expand key 0 (by decide)

/-- Each later round key is the round step applied to the one before (R123). -/
theorem keyAt_expand_succ (key : Block) {i : Nat} (hi : i < 10) :
    keyAt (expand key) (i + 1) = ksRound (keyAt (expand key) i) (roundConstant (i + 1)) := by
  rw [keyAt_expand key (i + 1) (by omega), keyAt_expand key i (by omega), roundKey]

/-- Settles O15: the list by evaluation, the round keys by the recursion of `EXPAND`. -/
theorem expandFollowsTheRoundConstants : Obligations.ExpandFollowsTheRoundConstants := by
  refine ⟨by decide, fun _ => roundConstant_succ, keyAt_expand_zero, fun key i hpos hi => ?_⟩
  obtain ⟨j, rfl⟩ := Nat.exists_eq_add_of_le' hpos
  exact keyAt_expand_succ key hi

/-! ### `KSROUND` by word -/

/-- One self-shift-and-XOR step of `KSROUND` (R122). -/
def shiftXor (k : Block) : Block := k ^^^ shl32 k

/-- `KSROUND` is three such steps and the broadcast assist word (R122). -/
theorem ksRound_eq_shiftXor (p : Block) (rc : Byte) :
    ksRound p rc = shiftXor (shiftXor (shiftXor p)) ^^^ bcast3 (ksAssist p rc) := rfl

/-- One step: each word but the lowest takes in the word below it (R124, `K1`). -/
theorem wordAt_shiftXor (k : Block) :
    wordAt (shiftXor k) 0 = wordAt k 0 ∧
    wordAt (shiftXor k) 1 = wordAt k 0 ^^^ wordAt k 1 ∧
    wordAt (shiftXor k) 2 = wordAt k 1 ^^^ wordAt k 2 ∧
    wordAt (shiftXor k) 3 = wordAt k 2 ^^^ wordAt k 3 := by
  have hstep : ∀ j, j < 3 → wordAt (shiftXor k) (j + 1) = wordAt k j ^^^ wordAt k (j + 1) := fun j hj => by
    rw [shiftXor, wordAt_xor, wordAt_shl32_of_pos k (by omega) (by omega), Nat.add_sub_cancel, BitVec.xor_comm]
  refine ⟨?_, hstep 0 (by decide), hstep 1 (by decide), hstep 2 (by decide)⟩
  rw [shiftXor, wordAt_xor, wordAt_shl32_zero, BitVec.xor_zero]

/-- A word XORed in twice drops out. -/
theorem xor_xor_xor_cancel (a b c : Word32) : (a ^^^ b) ^^^ (b ^^^ c) = a ^^^ c := by
  rw [BitVec.xor_assoc, xor_cancel_left]

/-- Two steps: the word one below, taken in twice, is gone again (R124, `K2`). -/
theorem wordAt_shiftXor_twice (p : Block) :
    wordAt (shiftXor (shiftXor p)) 0 = wordAt p 0 ∧
    wordAt (shiftXor (shiftXor p)) 1 = wordAt p 1 ∧
    wordAt (shiftXor (shiftXor p)) 2 = wordAt p 0 ^^^ wordAt p 2 ∧
    wordAt (shiftXor (shiftXor p)) 3 = wordAt p 1 ^^^ wordAt p 3 := by
  obtain ⟨a0, a1, a2, a3⟩ := wordAt_shiftXor p
  obtain ⟨b0, b1, b2, b3⟩ := wordAt_shiftXor (shiftXor p)
  rw [b0, b1, b2, b3, a0, a1, a2, a3, xor_xor_xor_cancel, xor_xor_xor_cancel, xor_cancel_left]
  exact ⟨rfl, rfl, rfl, rfl⟩

/-- Three steps: each word is the XOR of all words up to it (R124, `K3`). -/
theorem wordAt_shiftXor_thrice (p : Block) :
    wordAt (shiftXor (shiftXor (shiftXor p))) 0 = wordAt p 0 ∧
    wordAt (shiftXor (shiftXor (shiftXor p))) 1 = wordAt p 0 ^^^ wordAt p 1 ∧
    wordAt (shiftXor (shiftXor (shiftXor p))) 2 = wordAt p 0 ^^^ wordAt p 1 ^^^ wordAt p 2 ∧
    wordAt (shiftXor (shiftXor (shiftXor p))) 3 = wordAt p 0 ^^^ wordAt p 1 ^^^ wordAt p 2 ^^^ wordAt p 3 := by
  obtain ⟨b0, b1, b2, b3⟩ := wordAt_shiftXor_twice p
  obtain ⟨c0, c1, c2, c3⟩ := wordAt_shiftXor (shiftXor (shiftXor p))
  rw [c0, c1, c2, c3, b0, b1, b2, b3]
  exact ⟨rfl, rfl, by ac_rfl, by ac_rfl⟩

/-- The same word, from the high word of `P` and the round constant, goes into each word of the result (R124). -/
theorem wordAt_ksRound (p : Block) (rc : Byte) {j : Nat} (hj : j < 4) :
    wordAt (ksRound p rc) j =
      wordAt (shiftXor (shiftXor (shiftXor p))) j ^^^ (rotWord (subWord (wordAt p 3)) ^^^ rcWord rc) := by
  obtain ⟨-, -, -, hassist⟩ := wordAt_ksAssist p rc
  rw [ksRound_eq_shiftXor, wordAt_xor, wordAt_bcast3 _ hj, hassist]

/-- Settles O17: the words of the three steps, and the recurrence from the prefix XORs of the third. -/
theorem keyScheduleRoundIsTheWordRecurrence : Obligations.KeyScheduleRoundIsTheWordRecurrence := by
  intro p rc k1 k2 k3 n p0 p1 p2 p3 t
  obtain ⟨a0, a1, a2, a3⟩ := wordAt_shiftXor p
  obtain ⟨b0, b1, b2, b3⟩ := wordAt_shiftXor_twice p
  obtain ⟨c0, c1, c2, c3⟩ : wordAt k3 0 = p0 ∧ wordAt k3 1 = p0 ^^^ p1 ∧ wordAt k3 2 = p0 ^^^ p1 ^^^ p2 ∧
    wordAt k3 3 = p0 ^^^ p1 ^^^ p2 ^^^ p3 := wordAt_shiftXor_thrice p
  have hn : ∀ j, j < 4 → wordAt n j = wordAt k3 j ^^^ t := fun _ => wordAt_ksRound p rc
  have n0 := hn 0 (by decide)
  have n1 := hn 1 (by decide)
  have n2 := hn 2 (by decide)
  have n3 := hn 3 (by decide)
  rw [c0] at n0
  refine ⟨ksRound_eq_shiftXor p rc, a0, a1, a2, a3, b0, b1, b2, b3, c0, c1, c2, c3, n0, ?_, ?_, ?_⟩
  · rw [n1, n0, c1]; ac_rfl
  · rw [n2, n1, c2, c1]; ac_rfl
  · rw [n3, n2, c3, c2]; ac_rfl

/-! ### Published values -/

/-- Settles O19: the expansion and the three encryptions, each evaluated in the kernel (R125, R132). -/
theorem publishedCipherValues : Obligations.PublishedCipherValues :=
  ⟨by decide +kernel, by decide +kernel, by decide +kernel, by decide +kernel⟩

end Sys2Proof.Machine
end

section
/-! PROOFS. The block encryption and the counter adder (spec/42_block_encrypt.md R130, R133, R134). -/

namespace Sys2Proof.Machine

open Sys2Proof

/-! ### `ENCBLK` -/

/-- A round key of the structure is the schedule's entry of that index (R42). -/
theorem keyAt_eq_getElem (rk : Schedule) {i : Nat} (hi : i < 11) : keyAt rk i = rk[i] := by
  simp [keyAt, Vector.getD, hi]

/-- The whitening is the state before any round (R130). -/
@[simp] theorem encRounds_zero (rk : Schedule) (b : Block) : encRounds rk b 0 = b ^^^ keyAt rk 0 := rfl

/-- One more full round takes the next round key (R130). -/
@[simp] theorem encRounds_succ (rk : Schedule) (b : Block) (n : Nat) :
    encRounds rk b (n + 1) = cipherRound (encRounds rk b n) (keyAt rk (n + 1)) := rfl

/-- Settles O18: the nine rounds unrolled, and the state after `i` rounds as the recursion's function. -/
theorem encryptBlockIsWhiteningNineRoundsAndLastRound :
    Obligations.EncryptBlockIsWhiteningNineRoundsAndLastRound := by
  refine ⟨fun rk b => ?_, fun rk b => ⟨encRounds rk b, encRounds_zero rk b, fun i hpos _ => ?_, rfl⟩⟩
  · simp only [encBlk, encRounds_succ, encRounds_zero, keyAt_eq_getElem, Nat.reduceAdd, Nat.reduceLT]
  · obtain ⟨n, rfl⟩ := Nat.exists_eq_add_of_le' hpos
    exact encRounds_succ rk b n

/-! ### `CTRADD` -/

/-- The adder of width 64 leaves the high half as it was (R134). -/
theorem val_ctrAdd_w64_high (c : Block) (k : Nat) : val (ctrAdd .w64 c k) / 2 ^ 64 = val c / 2 ^ 64 := by
  rw [val_ctrAdd_w64]
  omega

/-- While the low half does not overflow, the two widths agree (R134). -/
theorem ctrAdd_w64_eq_w128 {c : Block} {k : Nat} (hlow : val c % 2 ^ 64 + k < 2 ^ 64) :
    ctrAdd .w64 c k = ctrAdd .w128 c k := by
  have hc := val_lt c
  apply val_inj
  rw [val_ctrAdd_w64, val_ctrAdd_w128]
  omega

/-- Settles O20: the two sums are the definition, the laws those of the sums, the examples by evaluation. -/
theorem counterAdderLaws : Obligations.CounterAdderLaws :=
  ⟨fun _ _ => rfl, fun _ _ => rfl, val_ctrAdd_w64_high, ctrAdd_zero, ctrAdd_add, fun _ _ => ctrAdd_w64_eq_w128,
    by decide +kernel, by decide +kernel, by decide +kernel, by decide +kernel, by decide +kernel, by decide +kernel⟩

end Sys2Proof.Machine
end

section
/-! PROOFS. FILL (spec/43_fill.md R140 to R158): its command step byte by byte, its acceptance, its output micro-steps,
and the micro-steps composed. -/

namespace Sys2Proof.Machine

open Sys2Proof

/-! ### The command step -/

/-- What an offset reads as after a FILL: byte `a % 16` of output block `a / 16` below the length, and nothing beyond it
(R140, R54). The length enters only as the bound. -/
theorem fillCommand_read (c : Config) (n : Nat) (s : State) (a : Nat) :
    (fillCommand c n s).out.read a =
      if a < n then some (byteAt (outBlock c.ctrIncWidth s.rk s.ctr (a / 16)) (a % 16)) else none := by
  have hn := le_blockCount n
  rw [fillCommand_out, OutSpace.read_write, List.length_take, streamBytes_length, Nat.min_eq_left hn,
    OutSpace.fresh_read, Nat.zero_add, Nat.sub_zero]
  by_cases ha : a < n
  · have hstream := streamBytes_getElem? c.ctrIncWidth s.rk s.ctr (blockCount n) (a / 16) (a % 16) (by omega) (by omega)
    rw [Nat.div_add_mod] at hstream
    rw [if_pos ⟨Nat.zero_le a, ha⟩, if_pos ha, List.getElem?_take_of_lt ha, hstream]
  · rw [if_neg fun h => ha h.2, if_neg ha]

/-- An unseeded CORE takes the fault `NotSeeded` (R182). -/
theorem exec_fill_unseeded {n : Nat} {s : State} (hr : s.ready = true) (hs : s.seeded = false) :
    exec (.fill n) s = .next (raiseFault .notSeeded s) := by
  simp [exec, execFill, hr, hs]

/-- The worked example of R140: `FILL 5` at the ascending key and counter. The register and byte lemmas leave closed
terms of the cipher to evaluate. -/
theorem fillCommand_worked_example {s : State} (hrk : s.rk = expand (ofHex 0x000102030405060708090a0b0c0d0e0f))
    (hctr : s.ctr = ofHex 0x101112131415161718191a1b1c1d1e1f) :
    (∀ a, a < 5 → (fillCommand Config.core 5 s).out.read a = [0x07#8, 0xfe#8, 0xef#8, 0x74#8, 0xe1#8][a]?) ∧
    (fillCommand Config.core 5 s).ctr = ofHex 0x111112131415161718191a1b1c1d1e1f ∧
    keyAt (fillCommand Config.core 5 s).rk 0 = ofHex 0x0c47884cfa9f682286e80f3b36c30c1b := by
  refine ⟨?_, ?_, ?_⟩
  · simp only [fillCommand_read, hrk, hctr]
    decide +kernel
  · rw [fillCommand_ctr, hctr]
    decide +kernel
  · rw [fillCommand_rk, rekey, keyAt_expand_zero, hrk, hctr]
    decide +kernel

/-- Settles O28: the bytes by what an offset reads as, the waiting and the fault by FILL's meaning. -/
theorem fillCommandOutputCounterAndSchedule : Obligations.FillCommandOutputCounterAndSchedule := by
  refine ⟨fun n s hp hf hs hpace => ?_, fun n s => commandWaitsUnlessReady (.fill n) s,
    fun n s hp hf hs => exec_fill_unseeded ((ready_iff s).2 ⟨hp, hf⟩) hs, fun s hp hf hs hpace hrk hctr => ?_⟩
  · refine ⟨_, exec_fill_prompt ((ready_iff s).2 ⟨hp, hf⟩) hs hpace, rfl, fun j i hi hij => ?_, fun a ha => ?_, rfl,
      rfl⟩
    · rw [fillCommand_read, if_pos hij, show (16 * j + i) / 16 = j by omega, show (16 * j + i) % 16 = i by omega]
      rfl
    · rw [fillCommand_read, if_neg (by omega)]
  · obtain ⟨hbytes, hctr', hkey⟩ := fillCommand_worked_example hrk hctr
    exact ⟨_, exec_fill_prompt ((ready_iff s).2 ⟨hp, hf⟩) hs hpace, hbytes 0 (by decide), hbytes 1 (by decide),
      hbytes 2 (by decide), hbytes 3 (by decide), hbytes 4 (by decide), hctr', hkey⟩

/-- Settles O29: the command step writes zeros, the length, and nothing else of the frame. -/
theorem fillFrame : Obligations.FillFrame := by
  intro n s hp hf hs hpace
  exact ⟨_, exec_fill_prompt ((ready_iff s).2 ⟨hp, hf⟩) hs hpace, rfl, rfl, rfl, rfl, rfl, rfl, rfl, rfl,
    ⟨rfl, rfl, rfl, rfl, rfl⟩, rfl, rfl, rfl⟩

/-- Settles O30: below the length a byte does not depend on the length, and the registers but `OFF` depend on it by its
block count alone. -/
theorem fillIsAPrefixOfLongerFill : Obligations.FillIsAPrefixOfLongerFill := by
  refine fun c s n m hnm => ⟨fun a ha => ?_, fun hblocks => ⟨?_, ?_, fun o space => ?_⟩⟩
  · rw [fillCommand_read, fillCommand_read, if_pos ha, if_pos (by omega)]
    exact ⟨rfl, Option.some_ne_none _⟩
  · rw [fillCommand_rk, fillCommand_rk, hblocks]
  · rw [fillCommand_ctr, fillCommand_ctr, hblocks]
  · simp only [fillCommand, hblocks]

/-- Settles O43: the command step reads `RK`, `CTR` and the length for these three. -/
theorem fillIsAFunctionOfScheduleCounterAndLength : Obligations.FillIsAFunctionOfScheduleCounterAndLength := by
  intro n s t hp hf hs hpace hp' hf' hs' hpace' hrk hctr
  refine ⟨_, _, exec_fill_prompt ((ready_iff s).2 ⟨hp, hf⟩) hs hpace,
    exec_fill_prompt ((ready_iff t).2 ⟨hp', hf'⟩) hs' hpace', ?_, ?_, ?_⟩
  · rw [fillCommand_out, fillCommand_out, hrk, hctr]
  · rw [fillCommand_rk, fillCommand_rk, hrk, hctr]
  · rw [fillCommand_ctr, fillCommand_ctr, hctr]

/-! ### Acceptance -/

/-- The thresholds of `select` (R142): each answer's range, exactly. -/
theorem select_core_iff (r : Nat) :
    (select Config.core r = .f8 ↔ 128 < r) ∧ (select Config.core r = .f2 ↔ 32 < r ∧ r ≤ 128) ∧
    (select Config.core r = .f1 ↔ 16 < r ∧ r ≤ 32) ∧ (select Config.core r = .tail ↔ 0 < r ∧ r ≤ 16) ∧
    (select Config.core r = .rkenc ↔ r = 0) := by
  simp only [select, Config.core]
  split_ifs <;> simp <;> omega

/-- `select` never answers `IDLE`: an accepted FILL is under way. -/
theorem select_ne_idle (c : Config) (r : Nat) : select c r ≠ .idle := by
  obtain ⟨h, -⟩ | ⟨h, -⟩ | ⟨h, -⟩ | ⟨h, -⟩ | ⟨h, -⟩ := select_cases c r <;> simp [h]

/-- An accepted FILL raises `BUSY` (R27, R142). -/
theorem acceptFill_busy (c : Config) (n : Nat) (s : State) : (acceptFill c n s).busy = true := by
  obtain ⟨hhalt, -⟩ := select_ne c n
  exact (busy_iff _).2 ⟨select_ne_idle c n, hhalt⟩

/-- Settles O31: acceptance writes these fields and no other, and `select` answers by exact ranges. -/
theorem acceptanceStartsTheFill : Obligations.AcceptanceStartsTheFill := by
  refine ⟨fun n s r hn hp hf hs hpace => ?_, select_core_iff⟩
  exact ⟨_, exec_fill_paced ((ready_iff s).2 ⟨hp, hf⟩) hs hpace, lenOf_toNat n hn, rfl, rfl, acceptFill_busy _ n s,
    rfl, fun _ => rfl, rfl, ⟨rfl, rfl, rfl, rfl, rfl, rfl, rfl, rfl, rfl, rfl, rfl, rfl⟩, rfl, rfl, rfl⟩

/-! ### The output micro-steps -/

/-- Settles O37: an output phase makes an output micro-step, which keeps everything outside its regime. -/
theorem outputPhasesKeepTheSchedule : Obligations.OutputPhasesKeepTheSchedule :=
  fun c _ _ ho hst => outputStep_sameOutside (microStep_output c ho ▸ hst)

/-- `REM` goes down by the bytes written (R32). -/
theorem OutputStepEffect.rem_add {c : Config} {k n : Nat} {p : Phase} {s t : State}
    (h : OutputStepEffect c k n p s t) : t.rem.toNat + n = s.rem.toNat := by
  obtain ⟨-, -, -, -, -, hrem, -⟩ := h
  exact hrem

/-- The first block a micro-step encrypts is the one at `CTR` itself, and it stands in `T` (R34, R146). -/
theorem OutputStepEffect.t_eq {c : Config} {k n : Nat} {p : Phase} {s t : State}
    (h : OutputStepEffect c k n p s t) (hk : 0 < k) : t.t = encBlk s.rk s.ctr := by
  obtain ⟨hscr, -⟩ := h
  have h0 := hscr 0
  rw [Fin.val_zero, if_pos hk, ctrAdd_zero] at h0
  exact h0

/-- A whole output micro-step of the eight-lane sequencer, from the numbers its phase stands for: `k` blocks and `n`
bytes, all of which the host takes (R143 to R146). -/
theorem microStep_whole_output {k n : Nat} {s : State} (hsel : select Config.core s.rem.toNat = s.phase)
    (ho : s.phase.isOutput = true) (hcounts : outputBlocks s.phase = k ∧ s.outputCount = n) (h0 : s.sent = 0)
    (hl : s.off.toNat + s.rem.toNat = s.out.len) (hlt : s.out.len < 2 ^ 64) (hp : s.pace.takes n = n) :
    ∃ t, microStep Config.core s = .next t ∧
      OutputStepEffect Config.core k n (select Config.core (s.rem.toNat - n)) s t := by
  obtain ⟨rfl, rfl⟩ := hcounts
  exact ⟨_, outputStep_effect hsel.symm ho h0 hl hlt hp⟩

/-- Settles O32: in `F8` the micro-step has 8 blocks, and more than its 128 bytes remain. -/
theorem eightLaneStep : Obligations.EightLaneStep := by
  intro s hp hlow h0 hl hlt htakes
  obtain ⟨hf8, -⟩ := select_core_iff s.rem.toNat
  obtain ⟨hcounts, -⟩ := outputBlocks_outputCount s
  obtain ⟨t, hstep, heff⟩ :=
    microStep_whole_output (by rw [hf8.2 hlow, hp]) (by rw [hp]; rfl) (hcounts hp) h0 hl hlt htakes
  have hrem := heff.rem_add
  exact ⟨t, hstep, heff, by omega⟩

/-- Settles O33: in `F2` the micro-step has 2 blocks, and more than its 32 bytes remain. -/
theorem twoLaneStep : Obligations.TwoLaneStep := by
  intro s hp hlow hhigh h0 hl hlt htakes
  obtain ⟨-, hf2, -⟩ := select_core_iff s.rem.toNat
  obtain ⟨-, hcounts, -⟩ := outputBlocks_outputCount s
  obtain ⟨t, hstep, heff⟩ :=
    microStep_whole_output (by rw [hf2.2 ⟨hlow, hhigh⟩, hp]) (by rw [hp]; rfl) (hcounts hp) h0 hl hlt htakes
  have hrem := heff.rem_add
  exact ⟨t, hstep, heff, by omega⟩

/-- Settles O34: in `F1` the micro-step has one block, and 1 to 16 bytes remain after it, so that the tail follows. -/
theorem oneLaneStep : Obligations.OneLaneStep := by
  intro s hp hlow hhigh h0 hl hlt htakes
  obtain ⟨-, -, hf1, -⟩ := select_core_iff s.rem.toNat
  obtain ⟨-, -, -, htail, -⟩ := select_core_iff (s.rem.toNat - 16)
  obtain ⟨-, -, hcounts, -⟩ := outputBlocks_outputCount s
  obtain ⟨t, hstep, heff⟩ :=
    microStep_whole_output (by rw [hf1.2 ⟨hlow, hhigh⟩, hp]) (by rw [hp]; rfl) (hcounts hp) h0 hl hlt htakes
  rw [htail.2 (by omega)] at heff
  have hrem := heff.rem_add
  exact ⟨t, hstep, heff, by omega, by omega⟩

/-- Settles O35: in `TAIL` the micro-step has one block, in `T`, and its bytes are all that remain. -/
theorem tailStep : Obligations.TailStep := by
  intro s hp hlow hhigh h0 hl hlt htakes
  obtain ⟨-, -, -, htail, -⟩ := select_core_iff s.rem.toNat
  obtain ⟨-, -, -, hcounts⟩ := outputBlocks_outputCount s
  obtain ⟨t, hstep, heff⟩ :=
    microStep_whole_output (by rw [htail.2 ⟨hlow, hhigh⟩, hp]) (by rw [hp]; rfl) (hcounts hp) h0 hl hlt htakes
  rw [Nat.sub_self, select_zero] at heff
  have hrem := heff.rem_add
  exact ⟨t, hstep, heff, BitVec.eq_of_toNat_eq (show t.rem.toNat = 0 by omega), heff.t_eq Nat.one_pos⟩

/-! ### The micro-steps composed -/

/-- Settles O39: the run from acceptance, through the output phases and the rekey. -/
theorem fillMicroStepsComposeToTheCommand : Obligations.FillMicroStepsComposeToTheCommand :=
  fun c _ _ hn hp _ htakes => microRun_acceptFill c hn hp htakes

/-- Settles O42: both runs end in the command step's state, which does not read the lane count. -/
theorem laneCountIsUnobservable : Obligations.LaneCountIsUnobservable := by
  intro w n s hn hp _ htakes
  obtain ⟨m, -, height⟩ := microRun_acceptFill { ctrIncWidth := w, nLanes := .eight } hn hp htakes
  obtain ⟨k, -, hone⟩ := microRun_acceptFill { ctrIncWidth := w, nLanes := .one } hn hp htakes
  exact ⟨m, k, { fillCommand { ctrIncWidth := w, nLanes := .eight } n s with pace := s.pace.after n }, hp, height, hone⟩

end Sys2Proof.Machine
end

section
/-! PROOFS. No state that meets the invariant stops, but `HALT` (spec/43_fill.md R154, spec/60_exceptions.md R180,
R184). -/

namespace Sys2Proof.Machine

open Sys2Proof

/-- Under the invariant every phase but `HALT` has a micro-step: an output phase is `select`'s and inside the space, and
in `RKENC` nothing remains to be written (R151, R154). -/
theorem microStep_next_of_inv {c : Config} {s : State} (h : s.Inv c) (hp : s.phase ≠ .halt) :
    ∃ t, microStep c s = .next t := by
  by_cases ho : s.phase.isOutput = true
  · obtain ⟨t, hstep, -⟩ := microStep_output_of_inv h ho
    exact ⟨t, hstep⟩
  · have hrem : s.phase = .rkenc → s.rem = 0#64 := fun hq => h.remZero (.inl (by rw [hq]; exact ⟨rfl, rfl⟩))
    unfold microStep rkencStep
    generalize s.phase = p at hp ho hrem
    cases p with
    | halt => exact absurd rfl hp
    | f8 | f2 | f1 | tail => exact absurd rfl ho
    | rkenc => exact ⟨_, if_pos (hrem rfl)⟩
    | idle | rkexp | swap | sdexp | sdcommit => exact ⟨_, rfl⟩

/-- With no command under way a step always has a next state: CORE waits, collects, faults, or runs a command, and no
command's meaning stops (R88, R184). -/
theorem step_next_of_idle {s : State} (hr : s.rst = false) (hp : s.phase = .idle) : ∃ t, step s = .next t := by
  cases hy : s.ready with
  | false => exact ⟨s, step_of_not_ready hr hp hy⟩
  | true =>
    cases hd : decode (s.latch ++ s.cmd) with
    | command i rest =>
      rw [step_of_decode_command hr hp ((ready_iff s).1 hy).2 hd]
      exact exec_next i _
    | illegal op rest => exact ⟨_, step_of_decode_illegal hr hy hd⟩
    | incomplete => exact ⟨_, step_of_decode_incomplete hr hy hd⟩

/-- In `HALT` without reset no step is enabled (R184). -/
theorem step_of_halt {s : State} (hr : s.rst = false) (hp : s.phase = .halt) : step s = .fault .halted := by
  rw [step_micro hr (by rw [hp]; decide), microStep, hp]

/-- Settles O56: with reset a step is the reset; without it, it is a consumption in `IDLE`, stuck in `HALT`, and else a
micro-step, which the invariant enables. -/
theorem onlyHaltStops : Obligations.OnlyHaltStops := by
  intro s h
  cases hr : s.rst with
  | true => exact .inl ⟨_, step_reset hr⟩
  | false =>
    by_cases hidle : s.phase = .idle
    · exact .inl (step_next_of_idle hr hidle)
    by_cases hhalt : s.phase = .halt
    · exact .inr ⟨hhalt, rfl, step_of_halt hr hhalt⟩
    · rw [step_micro hr hidle]
      exact .inl (microStep_next_of_inv h hhalt)

end Sys2Proof.Machine
end

section
/-! PROOFS. The rekey (spec/44_rekey.md R160 to R167): the flip, why the key block's input is no output counter, and the
three micro-steps. -/

namespace Sys2Proof.Machine

open Sys2Proof

/-! ### The micro-steps -/

/-- In `RKENC` with nothing left to write, a micro-step is the flip and the key block (R160, R161). -/
theorem microStep_rkenc (c : Config) {s : State} (hp : s.phase = .rkenc) (hr : s.rem = 0#64) :
    microStep c s = .next (rkencWrites s) := by
  rw [microStep, hp]
  exact if_pos hr

/-- In `RKEXP` a micro-step is the expansion (R162). -/
theorem microStep_rkexp (c : Config) {s : State} (hp : s.phase = .rkexp) : microStep c s = .next (rkexpStep s) := by
  rw [microStep, hp]

/-- In `SWAP` a micro-step is the swap with the erasure (R163, R164). -/
theorem microStep_swap (c : Config) {s : State} (hp : s.phase = .swap) : microStep c s = .next (swapStep s) := by
  rw [microStep, hp]

/-- The swap erases `T` with the scratch file (R34, R164). -/
@[simp] theorem swapStep_t (s : State) : (swapStep s).t = 0#128 := by
  rw [State.t, swapStep_scr]
  exact Vector.getElem_replicate _

/-- Settles O38: the three writes are the three steps' definitions, and entry 0 of an expansion is its key. -/
theorem rekeyMicroSteps : Obligations.RekeyMicroSteps := by
  refine ⟨fun c _ => microStep_rkenc c, fun c s hp => ⟨microStep_rkexp c hp, keyAt_expand_zero s.kb⟩,
    fun c _ => microStep_swap c, fun c s t hp ht => ?_⟩
  rw [microStep_swap c hp, Host.Outcome.next.injEq] at ht
  rw [← ht, swapStep_t]

/-! ### The flip -/

/-- The top byte of `FLIP` is `80` (R160). -/
theorem byteAt_flipBlock_top : byteAt flipBlock 15 = 0x80#8 := by decide

/-- The other bytes of `FLIP` are zero (R160). -/
theorem byteAt_flipBlock_low : ∀ i < 15, byteAt flipBlock i = 0#8 := by decide

/-- The flip undoes itself. -/
theorem xor_flipBlock_twice (c : Block) : (c ^^^ flipBlock) ^^^ flipBlock = c := by
  rw [BitVec.xor_assoc, BitVec.xor_self, BitVec.xor_zero]

/-- Settles O21: `XOR` acts byte by byte, and `FLIP` has one byte that is not zero. -/
theorem flipInvertsTheTopBitAlone : Obligations.FlipInvertsTheTopBitAlone := by
  refine ⟨by decide, by decide, fun c => ?_, fun c i hi => ?_, xor_flipBlock_twice,
    fun c s hp hr => ⟨_, microStep_rkenc c hp hr, rkencWrites_f s, rkencWrites_ctr s⟩, by decide⟩
  · rw [byteAt_xor, byteAt_flipBlock_top]
  · rw [byteAt_xor, byteAt_flipBlock_low i hi, BitVec.xor_zero]

/-! ### Domain separation -/

/-- A FILL the encoding has encrypts at most `2^60` blocks (R167). -/
theorem blockCount_le {n : Nat} (hn : n < 2 ^ 64) : blockCount n ≤ 2 ^ 60 := by
  rw [blockCount]
  omega

/-- The flip moves the value by `2^127`, so it moves the high half of a block by `2^63`. -/
theorem val_xor_flipBlock_high (c : Block) : val (c ^^^ flipBlock) / 2 ^ 64 = (val c / 2 ^ 64 + 2 ^ 63) % 2 ^ 64 := by
  rw [val_xor_flipBlock]
  omega

/-- Width 128: two counters less than `2^127` apart do not meet by a flip (R167). -/
theorem ctrAdd_w128_flip_ne (c : Block) {j k : Nat} (hjk : j ≤ k) (hk : k < j + 2 ^ 127) :
    ctrAdd .w128 c k ^^^ flipBlock ≠ ctrAdd .w128 c j := by
  intro h
  have hval := congrArg val h
  rw [val_xor_flipBlock, val_ctrAdd_w128, val_ctrAdd_w128] at hval
  omega

/-- Width 64: the adder keeps the high half, which the flip changes, so no two counters meet by a flip (R167). -/
theorem ctrAdd_w64_flip_ne (c : Block) (j k : Nat) : ctrAdd .w64 c k ^^^ flipBlock ≠ ctrAdd .w64 c j := by
  intro h
  have hval := congrArg (val · / 2 ^ 64) h
  simp only [val_xor_flipBlock_high, val_ctrAdd_w64_high] at hval
  omega

/-- Settles O22: with width 128 the two counters are at most `2^60` apart, with width 64 their high halves differ. -/
theorem keyBlockInputIsNoOutputCounter : Obligations.KeyBlockInputIsNoOutputCounter := by
  intro w c n j hn hj
  have hblocks := blockCount_le hn
  cases w with
  | w128 => exact ctrAdd_w128_flip_ne c hj.le (by omega)
  | w64 => exact ctrAdd_w64_flip_ne c j (blockCount n)

end Sys2Proof.Machine
end

section
/-! PROOFS. The SEED command (spec/45_seed.md R170 to R174): the seed's two halves, the command step, acceptance and the
two micro-steps, what SEED leaves alone, and that the generator after it depends on the seed only. -/

namespace Sys2Proof.Machine

open Sys2Proof

/-! ### The seed's halves -/

/-- Byte `i` of a half of the seed is the seed's byte `i` after the half's first (R52, R171). -/
theorem byteAt_memReadSeed (x : Seed) (a : Nat) {i : Nat} (hi : i < 16) :
    byteAt (blockOfBytes (memReadSeed x a 16)) i = seedByte x (a + i) := by
  rw [byteAt_blockOfBytes _ _ hi, memReadSeed]
  simp [hi]

/-- The key half begins at the seed's byte 0 (R171). -/
theorem byteAt_seedKey (x : Seed) {i : Nat} (hi : i < 16) : byteAt (seedKey x) i = seedByte x i := by
  rw [seedKey, byteAt_memReadSeed x 0 hi, Nat.zero_add]

/-- The counter half begins at the seed's byte 16 (R171). -/
theorem byteAt_seedCounter (x : Seed) {i : Nat} (hi : i < 16) : byteAt (seedCounter x) i = seedByte x (16 + i) :=
  byteAt_memReadSeed x 16 hi

/-- Settles O23: the bytes by position, and the counter's value as the sum of its bytes. -/
theorem seedSplitsByteForByte : Obligations.SeedSplitsByteForByte := by
  refine ⟨fun x _ => byteAt_seedKey x, fun x _ => byteAt_seedCounter x, fun x => ?_⟩
  calc val (seedCounter x)
      = ((List.range 16).map fun i => (byteAt (seedCounter x) i).toNat * 2 ^ (8 * i)).sum := by
        rw [sum_byteAt, Nat.mod_eq_of_lt (val_lt _)]
    _ = ((List.range 16).map fun i => (seedByte x (16 + i)).toNat * 2 ^ (8 * i)).sum := by
        refine congrArg List.sum (List.map_congr_left fun i hi => ?_)
        rw [byteAt_seedCounter x (List.mem_range.1 hi)]

/-! ### The command step, acceptance and the micro-steps -/

/-- A prompt host sees a SEED as its command step (R170). -/
theorem exec_seed_prompt (x : Seed) {s : State} (hp : s.phase = .idle) (hf : s.fault = false)
    (hpace : s.pace = .prompt) : exec (.seed x) s = .next (seedCommand x s) := by
  simp [exec, execSeed, (ready_iff s).2 ⟨hp, hf⟩, hpace]

/-- A pacing host sees a SEED accepted (R88, R170). -/
theorem exec_seed_paced (x : Seed) {r : Nat} {s : State} (hp : s.phase = .idle) (hf : s.fault = false)
    (hpace : s.pace = .paced r) : exec (.seed x) s = .next (acceptSeed x s) := by
  simp [exec, execSeed, (ready_iff s).2 ⟨hp, hf⟩, hpace]

/-- In `SDEXP` a micro-step is the expansion into the shadow schedule (R170). -/
theorem microStep_sdexp (c : Config) {s : State} (hp : s.phase = .sdexp) : microStep c s = .next (sdexpStep s) := by
  rw [microStep, hp]

/-- In `SDCOMMIT` a micro-step is the commit with the erasure (R170, R172). -/
theorem microStep_sdcommit (c : Config) {s : State} (hp : s.phase = .sdcommit) :
    microStep c s = .next (sdcommitStep s) := by
  rw [microStep, hp]

/-- Settles O24: each kind of step writes what its definition says, and a CORE that is not ready waits. -/
theorem seedCommandLoadsScheduleCounterAndFlag : Obligations.SeedCommandLoadsScheduleCounterAndFlag :=
  ⟨fun x _ => exec_seed_prompt x,
    fun x => ⟨keyAt_expand_zero (seedKey x), rfl⟩,
    fun x _ _ => exec_seed_paced x,
    fun c _ => microStep_sdexp c,
    fun c _ => microStep_sdcommit c,
    fun x => commandWaitsUnlessReady (.seed x)⟩

/-- From an idle CORE the two phases write what the command step writes: the shadow schedule and the seed latch carry the
halves from one to the other (R170). -/
theorem sdcommitStep_sdexpStep_acceptSeed (x : Seed) {s : State} (hp : s.phase = .idle) :
    sdcommitStep (sdexpStep (acceptSeed x s)) = seedCommand x s := by
  calc sdcommitStep (sdexpStep (acceptSeed x s))
      = { seedCommand x s with phase := .idle } := rfl
    _ = { seedCommand x s with phase := (seedCommand x s).phase } := by rw [seedCommand_phase, hp]
    _ = seedCommand x s := rfl

/-- Settles O27: `SDEXP` writes the shadow schedule and `PHASE` only, and `SDCOMMIT` after it ends in the command step's
state. -/
theorem seedMicroStepsComposeToTheCommand : Obligations.SeedMicroStepsComposeToTheCommand := by
  intro c x s hp
  have hexp : microStep c (acceptSeed x s) = .next (sdexpStep (acceptSeed x s)) := microStep_sdexp c rfl
  have hcommit : microStep c (sdexpStep (acceptSeed x s)) = .next (seedCommand x s) := by
    rw [microStep_sdcommit c rfl, sdcommitStep_sdexpStep_acceptSeed x hp]
  exact ⟨by simp only [microRun, hexp, hcommit], _, hexp, rfl, rfl, rfl, rfl, rfl, rfl⟩

/-! ### What SEED leaves alone, and what it forgets -/

/-- Settles O25: waiting changes nothing, the command step writes the generator, the ephemeral registers and `OFF`, and
acceptance writes the seed latch and `PHASE`. -/
theorem seedLeavesOutputAndTheRestAlone : Obligations.SeedLeavesOutputAndTheRestAlone := by
  intro x s t h
  obtain ⟨hr, rfl⟩ | ⟨hr, hp, rfl⟩ | ⟨-, ⟨r, hp⟩, rfl⟩ := execSeed_cases h
  · have hwait : ¬(t.phase = .idle ∧ t.fault = false ∧ t.pace = .prompt) := fun ⟨hidle, hf, _⟩ =>
      Bool.false_ne_true (hr.symm.trans ((ready_iff t).2 ⟨hidle, hf⟩))
    simp [hwait]
  · obtain ⟨hidle, hf⟩ := (ready_iff s).1 hr
    simp [hidle, hf, hp]
  · simp [hp]

/-- While idle a state of the invariant has no fault, no fault code and nothing to write (R26, R31, R184). -/
theorem State.Inv.idle_registers {c : Config} {s : State} (h : s.Inv c) (hp : s.phase = .idle) :
    s.fault = false ∧ s.fcode = .none ∧ s.rem = 0#64 := by
  have hf : s.fault = false := Bool.eq_false_iff.2 fun hf =>
    absurd (hp.symm.trans (h.faultHalt.1 hf)) (by decide)
  obtain ⟨-, hrem⟩ := h.restErased (by rw [hp]; rfl)
  exact ⟨hf, h.codeFault.2 hf, hrem⟩

/-- `STATUS` of a seeded CORE that is idle and without fault (R28). -/
theorem status_of_seeded_idle {s : State} (hs : s.seeded = true) (hp : s.phase = .idle) (hf : s.fault = false)
    (hc : s.fcode = .none) : s.status = 0x01#8 := by
  rw [State.status, State.busy, hs, hp, hf, hc]
  rfl

/-- Settles O26: the command step writes constants and functions of the seed, and the invariant fixes the registers it
does not write. -/
theorem seedForgetsWhatStoodBefore : Obligations.SeedForgetsWhatStoodBefore := by
  refine ⟨fun x s t hp hf hpace hp' hf' hpace' => ?_, fun x s t h h' hp hp' hpace hpace' => ?_⟩
  · refine ⟨_, _, exec_seed_prompt x hp hf hpace, exec_seed_prompt x hp' hf' hpace', rfl, rfl, rfl, rfl,
      fun i hi => ?_⟩
    rw [seedCommand_rk, keyAt_expand_zero, byteAt_seedKey x hi]
  · obtain ⟨hf, hc, hrem⟩ := h.idle_registers hp
    obtain ⟨hf', hc', hrem'⟩ := h'.idle_registers hp'
    exact ⟨_, _, exec_seed_prompt x hp hf hpace, exec_seed_prompt x hp' hf' hpace', rfl, rfl, rfl,
      hf.trans hf'.symm, hc.trans hc'.symm, hp.trans hp'.symm, hrem.trans hrem'.symm, rfl, rfl, rfl, rfl, rfl, rfl,
      status_of_seeded_idle rfl hp hf hc⟩

end Sys2Proof.Machine
end

section
/-! PROOFS. Faults and the way out (spec/60_exceptions.md R182, R185, R192): FILL on an unseeded CORE, `HALT` and its only
exit, and the identification read. -/

namespace Sys2Proof.Machine

open Sys2Proof

/-- With no command under way a FILL complete at the port of an unseeded CORE is consumed whole, and the fault taken
(R182). -/
theorem step_fill_unseeded {n : Nat} {s : State} {rest : List Byte} (hr : s.rst = false) (hp : s.phase = .idle)
    (hf : s.fault = false) (hs : s.seeded = false) (hd : decode (s.latch ++ s.cmd) = .command (.fill n) rest) :
    step s = .next (raiseFault .notSeeded { s with latch := [], cmd := rest }) := by
  rw [step_of_decode_command hr hp hf hd]
  exact exec_fill_unseeded ((ready_iff _).2 ⟨hp, hf⟩) hs

/-- Settles O46: the command's meaning raises the fault, and the step has consumed the command before that. -/
theorem unseededFillTakesNotSeeded : Obligations.UnseededFillTakesNotSeeded :=
  ⟨fun _ s hp hf hs => exec_fill_unseeded ((ready_iff s).2 ⟨hp, hf⟩) hs,
    fun _ _ _ hr hp hf hs hd => step_fill_unseeded hr hp hf hs hd,
    rfl⟩

/-- In `HALT` no command byte is accepted (R184). -/
theorem cmdReady_of_halt {s : State} (hp : s.phase = .halt) : s.cmdReady = false := by
  refine Bool.eq_false_iff.2 fun hy => ?_
  obtain ⟨hidle, -⟩ := (ready_iff s).1 hy
  exact absurd (hp.symm.trans hidle) (by decide)

/-- In `HALT` CORE is not busy (R27, R184). -/
theorem busy_of_halt {s : State} (hp : s.phase = .halt) : s.busy = false :=
  Bool.eq_false_iff.2 fun hb => ((busy_iff s).1 hb).2 hp

/-- Settles O48: without reset `HALT` enables no step; with it the step is the reset, which gives every register named
here its reset value. -/
theorem haltIsLeftByResetAlone : Obligations.HaltIsLeftByResetAlone := fun s hp =>
  ⟨cmdReady_of_halt hp, busy_of_halt hp, fun hr => step_of_halt hr hp, fun hr =>
    ⟨takeReset s, step_reset hr, takeReset_phase s, takeReset_fault s, takeReset_fcode s, takeReset_rk s,
      takeReset_ctr s, takeReset_seeded s⟩⟩

/-- Settles O59: the read pairs a constant of the type with `STATUS`. -/
theorem identificationReadsStatusAlone : Obligations.IdentificationReadsStatusAlone := fun _ _ h =>
  ⟨congrArg (Prod.mk Config.typeMarker) h, rfl⟩

end Sys2Proof.Machine
end

section
/-! PROOFS. Reset (spec/70_reset_and_hazards.md R200, R203, spec/60_exceptions.md R187): the values it gives, and what it
leaves of a FILL under way. -/

namespace Sys2Proof.Machine

open Sys2Proof

/-- `STATUS` reads 0 after reset (R43). -/
@[simp] theorem takeReset_status (s : State) : (takeReset s).status = 0x00#8 := by
  simp only [State.status, State.busy, takeReset_fcode, takeReset_fault, takeReset_phase, takeReset_seeded]
  decide

/-- Reset erases the ephemeral registers (R38, R200). -/
theorem takeReset_erased (s : State) : (takeReset s).Erased :=
  ⟨takeReset_scr s, takeReset_f s, takeReset_kb s, takeReset_nrk s, takeReset_seedbuf s⟩

/-- Settles O52: in every phase the step is the reset. -/
theorem resetWinsInAnyPhase : Obligations.ResetWinsInAnyPhase := fun s hr =>
  ⟨takeReset s, step_reset hr, takeReset_rk s, takeReset_ctr s, takeReset_seeded s, takeReset_fault s,
    takeReset_fcode s, takeReset_phase s, takeReset_rem s, takeReset_off s, takeReset_erased s, takeReset_latch s,
    takeReset_sent s, takeReset_status s, takeReset_cmd s, takeReset_pace s, takeReset_out s⟩

/-- Wherever the micro-steps of an accepted FILL lead, a FILL may stand. -/
theorem fillProgress_of_microRun {c : Config} {n m : Nat} {s t : State} (hn : n < 2 ^ 64) (hs : s.phase = .idle)
    (hrun : microRun c m (acceptFill c n s) = .next t) : FillProgress c n s t := by
  obtain ⟨u, hu, hprog⟩ := fillProgress_microRun hn hs (fillProgress_accept c n s hn) m
  obtain rfl : u = t := Host.Outcome.next.inj (hu.symm.trans hrun)
  exact hprog

/-- Settles O53: before the reset the output space holds a prefix of the FILL's output, and the reset leaves it. -/
theorem resetDuringFillLeavesACorrectPrefix : Obligations.ResetDuringFillLeavesACorrectPrefix := by
  intro c n m s t u hn hs _ hrun hreset
  obtain ⟨k, hk, hout⟩ := fillProgress_out (fillProgress_of_microRun hn hs hrun)
  obtain rfl : takeReset (hostResets t) = u := Host.Outcome.next.inj ((step_reset rfl).symm.trans hreset)
  refine ⟨takeReset_seeded _, k, hk, fun a => ?_⟩
  have hkeep : (takeReset (hostResets t)).out = t.out := rfl
  rw [hkeep, hout, fillPrefix_read c n k s hk]

end Sys2Proof.Machine
end
